-- ==== Sys2Proof/Word.lean ====
section
/-! DEFINITION. The word types of the encoder (spec/00_scope.md R6, R8). -/

namespace Sys2Proof

/-- A byte: 8 bits, bit 0 the least significant (R8). -/
abbrev Byte := BitVec 8

/-- A bus address, `ADDR_W` = 8 bits (R6, D10). -/
abbrev BusAddr := BitVec 8

/-- A status code on its wires, `STATUS_W` = 8 bits, two's complement (R6, R53, D7). -/
abbrev Status := BitVec 8

/-- A stored or transmitted operating mode, `MODE_REG_W` = 2 bits (R6, R11, R12, D9). -/
abbrev ModeCode := BitVec 2

end Sys2Proof
end

