-- ==== Sys2Proof/Config.lean ====
section
/-! DEFINITION. The implementation parameters of spec/00_scope.md R5 and R6, each at the one value the spec gives this hardware,
and the values the configuration inputs hold in State.reset, where the spec gives none (notes/assumptions/1.md). -/

namespace Sys2Proof.Config

/-- `CMD_WRITE_DAC` (R5, R42). -/
def cmdWriteDac : BitVec 4 := 0x3
/-- `CMD_POWER_DAC` (R5, R42). -/
def cmdPowerDac : BitVec 4 := 0x4
/-- `CMD_REF_SETUP` (R5, R42). -/
def cmdRefSetup : BitVec 4 := 0x7

/-- `CH_A` (R5, R46). -/
def chA : BitVec 8 := 0x01
/-- `CH_B` (R5, R46). -/
def chB : BitVec 8 := 0x08
/-- `CH_BOTH` (R5, R46). -/
def chBoth : BitVec 8 := 0x09

/-- `ADDR_MAX` (R5, R25): the largest legal bus address. -/
def addrMax : BusAddr := 0x7F

/-- `CMD_LEN` (R5, R30), on the `LEN_W` = 32 bits of the transport's length argument (R6, D21). -/
def cmdLen : BitVec 32 := 3

/-- `PDA_POS` (R5): channel A's mode stands in bits [7:6] of byte 2 of format P. -/
def pdaPos : Nat := 6
/-- `PDB_POS` (R5): channel B's mode stands in bits [1:0] of byte 2 of format P. -/
def pdbPos : Nat := 0
/-- `REF_POS` (R5): the reference selection is bit 0 of byte 2 of format F. -/
def refPos : Nat := 0

/-- The operating mode codes, R47 (the numbers of the first three are the spec's decision D4). -/
def modeNormal : BitVec 8 := 0
/-- R47, D4. -/
def modePd1k : BitVec 8 := 1
/-- R47, D4. -/
def modePd10k : BitVec 8 := 2
/-- R47: the greatest defined mode code. -/
def modeTriState : BitVec 8 := 3

/-- `REF_ON` (R48, D5). -/
def refOn : BitVec 8 := 0
/-- `REF_OFF` (R48, D5): the greatest defined reference selection. -/
def refOff : BitVec 8 := 1

/-- `MODE_RESET_A` (R6, R21, D9). -/
def modeResetA : ModeCode := 0
/-- `MODE_RESET_B` (R6, R21, D9). -/
def modeResetB : ModeCode := 0

/-- DESIGN CHOICE, log entry 1: `write_present` in State.reset, for which the spec gives no value (R21, R132). Unsafe. -/
def writePresentReset : Bool := false
/-- DESIGN CHOICE, log entry 1: `read_present` in State.reset (R10: "unspecified; irrelevant"). Unsafe. -/
def readPresentReset : Bool := false
/-- DESIGN CHOICE, log entry 1: `delay_present` in State.reset (R10: "unspecified; irrelevant"). Unsafe. -/
def delayPresentReset : Bool := false
/-- DESIGN CHOICE, log entry 1: `bus_addr` in State.reset, for which the spec gives no value (R21, R132). Unsafe. -/
def busAddrReset : BusAddr := 0x00

end Sys2Proof.Config
end

