-- ==== Sys2Proof/Syntax.lean ====
section
/-! DEFINITION. What the encoder takes and what it makes: the request (spec/30_encoding.md R52), one constructor for each row of
spec/opcode_table.json; the wire command (R43 to R45), one constructor for each format; and the shared status codes (R53). -/

namespace Sys2Proof

/-- The kind of a command: the three-valued operation selector `op` (R52, D2). -/
inductive Op where
  | writeChannel
  | setOperatingMode
  | setReferenceMode
  deriving DecidableEq, Repr

/-- A request (R52): the operation with its own operands. `handlePresent` is the field `handle_present` that every request
carries; operands have their full width, so that a request can carry an invalid one (R46 to R48, D3). -/
inductive Instr where
  /-- `WRITE_CHANNEL channel, value` (R75). -/
  | writeChannel (handlePresent : Bool) (channel : BitVec 8) (value : BitVec 16)
  /-- `SET_OPERATING_MODE channel, mode` (R85). -/
  | setOperatingMode (handlePresent : Bool) (channel : BitVec 8) (mode : BitVec 8)
  /-- `SET_REFERENCE_MODE ref_sel` (R100). -/
  | setReferenceMode (handlePresent : Bool) (refSel : BitVec 8)
  deriving DecidableEq, Repr

/-- The `op` field of a request (R52). -/
def Instr.op : Instr → Op
  | .writeChannel _ _ _ => .writeChannel
  | .setOperatingMode _ _ _ => .setOperatingMode
  | .setReferenceMode _ _ => .setReferenceMode

/-- The `handle_present` field of a request (R52). -/
def Instr.handlePresent : Instr → Bool
  | .writeChannel h _ _ => h
  | .setOperatingMode h _ _ => h
  | .setReferenceMode h _ => h

/-- A wire command as the three formats give it (R43, R44, R45): the fields that carry information, without the command nibble
and the reserved bits. -/
inductive WireCommand where
  /-- Format W: the selector nibble and the 12 value bits that reach the wire. -/
  | writeDac (channel : BitVec 4) (value : BitVec 12)
  /-- Format P: the fields PDA and PDB. -/
  | powerDac (pda pdb : ModeCode)
  /-- Format F: the reference selection bit. -/
  | refSetup (refSel : BitVec 1)
  deriving DecidableEq, Repr

/-- The operation that produces a wire command of this format (R42). -/
def WireCommand.op : WireCommand → Op
  | .writeDac _ _ => .writeChannel
  | .powerDac _ _ => .setOperatingMode
  | .refSetup _ => .setReferenceMode

/-- The status codes of the shared enumeration (R53, R110). -/
inductive StatusCode where
  | ok
  | error
  | busy
  | timeout
  | invalidParameter
  | nullReference
  deriving DecidableEq, Repr

end Sys2Proof
end

