-- ==== Sys2Proof/Machine/Operands.lean ====
section
/-! DEFINITION. The operand checks of spec/40_common_sequence.md R63 and R64: which values are legal, and the status code of the
first operand check that fails. All comparisons are unsigned and on the full operand (R8, R46). -/

namespace Sys2Proof.Machine

/-- R46: a channel selector is valid when it is one of `CH_A`, `CH_B`, `CH_BOTH`, on its full width. -/
def channelValid (channel : BitVec 8) : Bool :=
  channel == Config.chA || channel == Config.chB || channel == Config.chBoth

/-- R47: a mode is valid exactly when `mode <= 3`. -/
def modeValid (mode : BitVec 8) : Bool := decide (mode ≤ Config.modeTriState)

/-- R48: a reference selection is valid exactly when `ref_sel <= 1`. -/
def refSelValid (refSel : BitVec 8) : Bool := decide (refSel ≤ Config.refOff)

/-- R25, R63: a bus address is legal exactly when it is at most `ADDR_MAX`. -/
def busAddrValid (addr : BusAddr) : Bool := decide (addr ≤ Config.addrMax)

/-- R64, row `WRITE_CHANNEL`: the channel is checked, the value is not. -/
def writeChannelFailure (channel : BitVec 8) : Option StatusCode :=
  if channelValid channel then none else some .invalidParameter

/-- R64 and R86, row `SET_OPERATING_MODE`: the mode, then the channel at the dispatch (C7, D18: the order cannot be seen). -/
def setOperatingModeFailure (channel mode : BitVec 8) : Option StatusCode :=
  if !modeValid mode then some .invalidParameter
  else if !channelValid channel then some .invalidParameter
  else none

/-- R64, row `SET_REFERENCE_MODE`. -/
def setReferenceModeFailure (refSel : BitVec 8) : Option StatusCode :=
  if refSelValid refSel then none else some .invalidParameter

/-- R47: a valid mode is stored as `mode[1:0]`. -/
def modeCode (mode : BitVec 8) : ModeCode := mode.extractLsb' 0 2

end Sys2Proof.Machine
end

