-- ==== Sys2Proof/WellFormed.lean ====
section
/-! DEFINITION. Which requests are well formed: the ones that carry a handle and whose operands lie in their enumerations
(spec/30_encoding.md R46 to R48, R52). Only these can reach the wire; the others run too, and end with the status code their
failed check gives (spec/40_common_sequence.md R61, R64). -/

namespace Sys2Proof

/-- R46 to R48: the operands of the request lie inside their enumerations; the output value is never checked (R49). -/
def Instr.operandsValid : Instr → Bool
  | .writeChannel _ channel _ => Machine.channelValid channel
  | .setOperatingMode _ channel mode => Machine.modeValid mode && Machine.channelValid channel
  | .setReferenceMode _ refSel => Machine.refSelValid refSel

/-- The request carries a handle and valid operands. -/
def Instr.wellFormed (i : Instr) : Bool := i.handlePresent && i.operandsValid

/-- R51, R57: the encoder can produce the wire command: the selector nibble of format W is on the opcode table's `legal` list. -/
def WireCommand.producible : WireCommand → Bool
  | .writeDac channel _ => Machine.channelValid (channel.setWidth 8)
  | .powerDac _ _ => true
  | .refSetup _ => true

end Sys2Proof
end

