-- ==== Sys2Proof/Decode.lean ====
section
/-! DEFINITION. The three wire formats (spec/30_encoding.md R40 to R50), both ways: `decode`, total on any bytes and rejecting by
name; the encoder; and the two readings of a wire command as a request. The rows of spec/opcode_table.json stand at the end. -/

namespace Sys2Proof

/-- Why bytes are no wire command (R40, R42, R50). -/
inductive DecodeError where
  /-- Not exactly three bytes (R40). -/
  | wrongLength (n : Nat)
  /-- A command nibble other than `0x3`, `0x4`, `0x7` (R42, R51). -/
  | unknownCommand (nibble : BitVec 4)
  /-- A selector nibble that is not zero in format P or F (R44, R45, D6). -/
  | selectorNibbleSet (nibble : BitVec 4)
  /-- A reserved byte `B1` that is not zero in format P or F (R44, R45). -/
  | reservedByteSet (b1 : Byte)
  /-- Reserved bits of `B2` that are not zero (R43, R44, R45, R50). -/
  | reservedBitsSet (b2 : Byte)
  deriving DecidableEq, Repr

/-- A field placed in a byte with its lowest bit at bit `pos`: the shift half of the document's shift-and-mask form (R49). -/
def fieldAt {w : Nat} (pos : Nat) (v : BitVec w) : Byte := v.setWidth 8 <<< pos

/-- The `w` bits of a byte that begin at bit `pos`. -/
def fieldOf (w pos : Nat) (b : Byte) : BitVec w := b.extractLsb' pos w

/-- The bits of `B2` that format P uses: the fields PDA and PDB (R44). -/
def powerFieldMask : Byte := fieldAt Config.pdaPos (3 : ModeCode) ||| fieldAt Config.pdbPos (3 : ModeCode)

/-- The bits of `B2` that format F uses: the reference selection (R45). -/
def refFieldMask : Byte := fieldAt Config.refPos (1 : BitVec 1)

/-- Format W read back (R43, R57): `channel = B0[3:0]`, `value[11:0] = B1 ‖ B2[3:0]`. The selector nibble is not restricted here:
its legal list is no part of the row's mask (R57), and the encoder's own operand check answers an illegal one. Log entry 5. -/
def decodeWriteDac (b0 b1 b2 : Byte) : Except DecodeError WireCommand :=
  if fieldOf 4 4 b2 ≠ 0 then .error (.reservedBitsSet b2)
  else .ok (.writeDac (fieldOf 4 0 b0) (b1 ++ fieldOf 4 0 b2))

/-- Format P read back (R44, R57): `PDA = B2[7:6]`, `PDB = B2[1:0]`, everything else zero. -/
def decodePowerDac (b0 b1 b2 : Byte) : Except DecodeError WireCommand :=
  if fieldOf 4 0 b0 ≠ 0 then .error (.selectorNibbleSet (fieldOf 4 0 b0))
  else if b1 ≠ 0 then .error (.reservedByteSet b1)
  else if b2 &&& ~~~powerFieldMask ≠ 0 then .error (.reservedBitsSet b2)
  else .ok (.powerDac (fieldOf 2 Config.pdaPos b2) (fieldOf 2 Config.pdbPos b2))

/-- Format F read back (R45, R57): `ref_sel = B2[0]`, everything else zero. -/
def decodeRefSetup (b0 b1 b2 : Byte) : Except DecodeError WireCommand :=
  if fieldOf 4 0 b0 ≠ 0 then .error (.selectorNibbleSet (fieldOf 4 0 b0))
  else if b1 ≠ 0 then .error (.reservedByteSet b1)
  else if b2 &&& ~~~refFieldMask ≠ 0 then .error (.reservedBitsSet b2)
  else .ok (.refSetup (fieldOf 1 Config.refPos b2))

/-- A wire command read back from its bytes: the command nibble `B0[7:4]` alone chooses the format (R57). -/
def decode : List Byte → Except DecodeError WireCommand
  | [b0, b1, b2] =>
    if fieldOf 4 4 b0 = Config.cmdWriteDac then decodeWriteDac b0 b1 b2
    else if fieldOf 4 4 b0 = Config.cmdPowerDac then decodePowerDac b0 b1 b2
    else if fieldOf 4 4 b0 = Config.cmdRefSetup then decodeRefSetup b0 b1 b2
    else .error (.unknownCommand (fieldOf 4 4 b0))
  | bs => .error (.wrongLength bs.length)

/-- The command byte: command nibble in `B0[7:4]`, selector nibble in `B0[3:0]` (R41). -/
def commandByte (command selector : BitVec 4) : Byte := fieldAt 4 command ||| fieldAt 0 selector

/-- The three bytes of a wire command, `B0` first (R29, R40, R43, R44, R45); every reserved bit is zero (R50). -/
def WireCommand.encode : WireCommand → List Byte
  | .writeDac channel value =>
    [commandByte Config.cmdWriteDac channel, value.extractLsb' 4 8, fieldAt 0 (value.extractLsb' 0 4)]
  | .powerDac pda pdb =>
    [commandByte Config.cmdPowerDac 0, 0, fieldAt Config.pdaPos pda ||| fieldAt Config.pdbPos pdb]
  | .refSetup refSel =>
    [commandByte Config.cmdRefSetup 0, 0, fieldAt Config.refPos refSel]

/-- R43, R49: what `WRITE_CHANNEL` sends: the selector's low nibble verbatim and `value[11:0]`; `value[15:12]` is dropped. -/
def wireOfWrite (channel : BitVec 8) (value : BitVec 16) : WireCommand :=
  .writeDac (channel.extractLsb' 0 4) (value.extractLsb' 0 12)

/-- R45, R48: what `SET_REFERENCE_MODE` sends: `ref_sel[0]`. -/
def wireOfReference (refSel : BitVec 8) : WireCommand := .refSetup (refSel.extractLsb' 0 1)

/-- The wire command of a request, given the mode registers as they stand after the request's own update (R66): they are the
whole content of format P, whose channel operand reaches no bit of the wire (R44). -/
def Instr.wire (modeA modeB : ModeCode) : Instr → WireCommand
  | .writeChannel _ channel value => wireOfWrite channel value
  | .setOperatingMode _ _ _ => .powerDac modeA modeB
  | .setReferenceMode _ refSel => wireOfReference refSel

/-- The words of a well-formed request: the three bytes it puts on the bus, given the mode registers after its update. -/
def encode (modeA modeB : ModeCode) (i : Instr) : List Byte := (i.wire modeA modeB).encode

/-- A request that puts this wire command on the bus. The wire loses `value[15:12]`, which are taken as zero, and in format P the
channel (R57); there the request is the one for BOTH when PDA = PDB, for B when PDA is zero, and for A otherwise. It sends
exactly this command wherever the register of the channel it does not name already holds the other field. DESIGN CHOICE, log
entry 6. -/
def WireCommand.request : WireCommand → Instr
  | .writeDac channel value => .writeChannel true (channel.setWidth 8) (value.setWidth 16)
  | .powerDac pda pdb =>
    if pda = pdb then .setOperatingMode true Config.chBoth (pda.setWidth 8)
    else if pda = 0 then .setOperatingMode true Config.chB (pdb.setWidth 8)
    else .setOperatingMode true Config.chA (pda.setWidth 8)
  | .refSetup refSel => .setReferenceMode true (refSel.setWidth 8)

/-- A request read from the bytes it would put on the bus. -/
def decodeRequest (bytes : List Byte) : Except DecodeError Instr :=
  match decode bytes with
  | .ok w => .ok w.request
  | .error e => .error e

/-- The three bytes of the 24-bit word `W = B0 ‖ B1 ‖ B2` (R8, R40), `B0` first. -/
def wordBytes (w : Nat) : List Byte := [BitVec.ofNat 8 (w / 65536), BitVec.ofNat 8 (w / 256), BitVec.ofNat 8 w]

/-- The request read from a word that spec/opcode_table.json numbers as one 24-bit word; a longer word is none (R40). DESIGN CHOICE,
log entry 19: R40 knows words of 24 bits only, and a word declared shorter is read as the 24-bit word with the same number, its
upper bits zero. -/
def decodeTableWord (nbits w : Nat) : Option Instr :=
  if 24 < nbits ∨ 2 ^ 24 ≤ w then none
  else
    match decodeRequest (wordBytes w) with
    | .ok i => some i
    | .error _ => none

/-- The 24-bit word of a wire command: `W[23:16] = B0`, `W[15:8] = B1`, `W[7:0] = B2` (R40). -/
def wordOfBytes : List Byte → Option (BitVec 24)
  | [b0, b1, b2] => some (b0 ++ b1 ++ b2)
  | _ => none

/-- One row of spec/opcode_table.json: its mnemonic and the fixed bits of its word. -/
structure TableRow where
  mnemonic : String
  fixedBits : BitVec 24
  mask : BitVec 24
  deriving DecidableEq, Repr

/-- The rows of spec/opcode_table.json, `match` as `fixedBits` (R57). -/
def tableRow : Op → TableRow
  | .writeChannel => ⟨"WRITE_CHANNEL", 0x300000, 0xF000F0⟩
  | .setOperatingMode => ⟨"SET_OPERATING_MODE", 0x400000, 0xFFFF3C⟩
  | .setReferenceMode => ⟨"SET_REFERENCE_MODE", 0x700000, 0xFFFFFE⟩

end Sys2Proof
end

