-- ==== Sys2Proof/Machine/Flags.lean ====
section
/-! DEFINITION. The encoder has no flags (spec/10_state.md R18). What takes their place is the status code a command returns:
its number and its bits on the wires (spec/30_encoding.md R53). -/

namespace Sys2Proof.Machine

/-- The number of a status code: "OK(0), Error(-1), Busy(-2), Timeout(-3), InvalidParameter(-4), NullReference(-5)" (R53). -/
def statusNumber : StatusCode → Int
  | .ok => 0
  | .error => -1
  | .busy => -2
  | .timeout => -3
  | .invalidParameter => -4
  | .nullReference => -5

/-- A status code on `STATUS_W` wires: two's complement (R53, D7). -/
def statusBits (c : StatusCode) : Status := BitVec.ofInt 8 (statusNumber c)

end Sys2Proof.Machine
end

