-- ==== Sys2Proof/Machine/State.lean ====
section
/-! DEFINITION. The state of the encoder (spec/10_state.md R10, R20), the configuration inputs it samples (R15), and the two
sides it meets: what the host and the transport do next (`events`) and what they have seen so far (`trace`). All of it is plain
data. -/

namespace Sys2Proof.Machine

/-- A call of one of the transport's three capabilities (spec/20_memory.md R26). The encoder makes only `write` calls (R27, R28);
the other two are here so that this can be said. -/
inductive TransportCall where
  /-- `write(busAddress, data, length)`: drives `t_addr`, `t_data`, `t_len`. -/
  | write (addr : BusAddr) (data : List Byte) (length : BitVec 32)
  /-- `read(busAddress, buffer, length)`. -/
  | read (addr : BusAddr) (length : BitVec 32)
  /-- `delayMicroseconds(duration)`. -/
  | delayMicroseconds (duration : BitVec 32)
  deriving DecidableEq, Repr

/-- One thing that can be seen from outside the encoder. -/
inductive Obs where
  /-- The encoder called the transport (R67). -/
  | call (c : TransportCall)
  /-- The encoder returned this status to the host: a command has ended (R61 to R64, R68). -/
  | status (st : Status)
  /-- The host read `MODE_A` and `MODE_B` (R14, D15). -/
  | modes (modeA modeB : ModeCode)
  /-- The encoder was brought into being anew (R130). -/
  | created
  deriving DecidableEq, Repr

/-- One thing the outside does to the encoder (spec/70_reset_and_hazards.md R141), the forbidden things among them, so that the
model can refuse them by name. -/
inductive Event where
  /-- The host presents one request (R52). -/
  | request (i : Instr)
  /-- Two or more requests at once, the one-hot request strobes broken (D2, U1). -/
  | requestsTogether (first second : Instr) (others : List Instr)
  /-- The transport answers the call in progress (R39, D8: any value). -/
  | answer (st : Status)
  /-- The host sets the bus address and binds or unbinds the three capabilities (R132, R138). -/
  | populate (writePresent readPresent delayPresent : Bool) (busAddr : BusAddr)
  /-- The host reads the mode registers (R14). -/
  | readModes
  /-- The host writes the mode registers (R13, U14: it must not). -/
  | writeModes (modeA modeB : ModeCode)
  /-- Reset: the encoder is created (R130); the configuration is whatever it happens to hold before the host populates it. -/
  | create (writePresent readPresent delayPresent : Bool) (busAddr : BusAddr)
  /-- A bit pattern that decodes to no request: only `withFetchWord` makes one (R52: there is no reserved operation). -/
  | noRequest (nbits w : Nat)
  deriving DecidableEq, Repr

/-- The state of one encoder and of its surroundings. -/
structure State where
  /-- `MODE_A` (R10, R11). -/
  modeA : ModeCode
  /-- `MODE_B` (R10, R12). -/
  modeB : ModeCode
  /-- `pending` (R20): the kind of the command that waits for the transport. -/
  pending : Option Op
  /-- `write_present` (R10, R15). -/
  writePresent : Bool
  /-- `read_present` (R10, R15): never examined. -/
  readPresent : Bool
  /-- `delay_present` (R10, R15): never examined. -/
  delayPresent : Bool
  /-- `bus_addr` (R10, R15). -/
  busAddr : BusAddr
  /-- The model's own: what the host and the transport do next, in order. Empty: they do nothing any more (R137). -/
  events : List Event
  /-- The model's own: what has been seen from outside so far, oldest first. The encoder never reads it (R18, R19). -/
  trace : List Obs
  deriving DecidableEq, Repr

/-- The encoder never stops with a fault: it "has no fatal conditions of its own; every failure is a returned result code" (R69).
The type has no constructor, so no step can answer one. Safe. -/
inductive Fault where
  deriving DecidableEq, Repr

/-- Why the model has no step. Each constructor but the first is a breach by the host or the transport for which the spec gives no
outcome and asks for a refusal (spec/93_implementation_defined.md part 1). -/
inductive Refusal where
  /-- Raised by an arm of `exec` whose instruction has no meaning yet: none. Safe. -/
  | notModelled (mnemonic : String)
  /-- Raised by every meaning when a command is in progress (R134, U1). Safe: nothing is proved of such a run. -/
  | requestWhileBusy
  /-- Raised by `step` on several requests at once (R134, D2, U1). Safe. -/
  | simultaneousRequests
  /-- Raised by `step` when the configuration changes during a command (R138, U6). Safe. -/
  | configurationChangeWhileBusy
  /-- Raised by `step` when the host reads the mode registers during a command (R14, U2). Safe. -/
  | modeReadWhileBusy
  /-- Raised by `step` when the host writes the mode registers (R13, D15, U14). Safe. -/
  | hostModeWrite
  /-- Raised by `step` on a reset during a command (R131, D23, U8). Safe. -/
  | resetWhileBusy
  /-- Raised by `step` when the transport answers and no call is outstanding (R26, R67). Safe. Log entry 4. -/
  | answerWithoutCall
  /-- Raised by `step` on a bit pattern that is no request (R52). Safe. -/
  | notARequest
  deriving DecidableEq, Repr

/-- The encoder right after reset (R21, R130): both modes 0, nothing in progress, nothing sent (R131). The four configuration
inputs have no reset value in the spec; they hold the values log entry 1 names. -/
def State.reset : State where
  modeA := Config.modeResetA
  modeB := Config.modeResetB
  pending := none
  writePresent := Config.writePresentReset
  readPresent := Config.readPresentReset
  delayPresent := Config.delayPresentReset
  busAddr := Config.busAddrReset
  events := []
  trace := []

end Sys2Proof.Machine
end

