-- ==== Sys2Proof/Machine/Ops.lean ====
section
/-! DEFINITION. The named operations every command is made of: the phases of spec/40_common_sequence.md R60, and among them the
one way a command ends early, which takes the place of an exception (spec/60_exceptions.md R116). There is no return from it: "there
is no return instruction and nothing to restore" (R118). -/

namespace Sys2Proof.Machine

/-- The answer of a meaning or a step. -/
abbrev Result := Host.Outcome State Fault Refusal

/-- The state with one more observation in the outside's record. -/
def State.observe (o : Obs) (s : State) : State :=
  { s with trace := s.trace ++ [o] }

/-- `return st` (R8): the command ends with status `st`, and the encoder is ready for the next one (R65, R118). -/
def State.returnStatus (st : Status) (s : State) : State :=
  { s.observe (.status st) with pending := none }

/-- `raise c` (R8, R116): the command ends at once with the status code as its result; nothing is saved, no register is written and
no transport call is made (R65, R117). -/
def raise (c : StatusCode) (s : State) : Result := .next (s.returnStatus (statusBits c))

/-- `MemWrite(addr, n, bytes)` (R8, R26): the one primitive that reaches the transport. Its answer is a later event (R60). -/
def State.memWrite (addr : BusAddr) (n : BitVec 32) (bytes : List Byte) (s : State) : State :=
  s.observe (.call (.write addr bytes n))

/-- Phase 1 as far as it is common to all operations, in order: handle (R61), write capability (R62), bus address (R63). -/
def bindingFailure (handlePresent : Bool) (s : State) : Option StatusCode :=
  if !handlePresent then some .nullReference
  else if !s.writePresent then some .nullReference
  else if !busAddrValid s.busAddr then some .invalidParameter
  else none

/-- All of phase 1: the first check that fails decides, the operands' own checks come last (R60, R114). -/
def firstFailure (handlePresent : Bool) (operandFailure : Option StatusCode) (s : State) : Option StatusCode :=
  match bindingFailure handlePresent s with
  | some c => some c
  | none => operandFailure

/-- Phase 4 (R67): one transport write of the whole command to `bus_addr` as it stands (R32), of length 3 (R30); from here the
encoder is busy (R20). -/
def State.issue (op : Op) (w : WireCommand) (s : State) : State :=
  { s.memWrite s.busAddr Config.cmdLen w.encode with pending := some op }

/-- Phase 5 (R68): the transport's answer is the result, bit for bit, whatever it is (R39). -/
def State.complete (st : Status) (s : State) : State := s.returnStatus st

/-- A command from its acceptance to its issue: phases 1 to 4 of R60 (D17). `update` is phase 2, `build` is phase 3 and reads the
registers after the update (R66). While a command is in progress no request is taken (R134, U1). -/
def runCommand (op : Op) (handlePresent : Bool) (operandFailure : Option StatusCode) (update : State → State)
    (build : State → WireCommand) (s : State) : Result :=
  if s.pending.isSome then .refused .requestWhileBusy
  else
    match firstFailure handlePresent operandFailure s with
    | some c => raise c s
    | none => .next ((update s).issue op (build (update s)))

/-- The register update of `SET_OPERATING_MODE`, by channel (R87). -/
def State.storeMode (channel : BitVec 8) (mode : ModeCode) (s : State) : State :=
  if channel = Config.chA then { s with modeA := mode }
  else if channel = Config.chB then { s with modeB := mode }
  else if channel = Config.chBoth then { s with modeA := mode, modeB := mode }
  else s

/-- The state in which the outside will do `es`. -/
def State.withEvents (es : List Event) (s : State) : State := { s with events := es }

end Sys2Proof.Machine
end

