-- ==== Sys2Proof/Machine/Commands.lean ====
section
/-! DEFINITION. The meanings of the three operations: spec/41_write_channel.md R75, spec/42_set_operating_mode.md R85 and
spec/43_set_reference_mode.md R100. Each runs phases 1 to 4 of a command; the transport's answer ends it (`answerCall`). -/

namespace Sys2Proof.Machine

/-- `WRITE_CHANNEL channel, value` (R75): no register is read or written (R78). -/
def execWriteChannel (handlePresent : Bool) (channel : BitVec 8) (value : BitVec 16) (s : State) : Result :=
  runCommand .writeChannel handlePresent (writeChannelFailure channel) id (fun _ => wireOfWrite channel value) s

/-- `SET_OPERATING_MODE channel, mode` (R85): the register the channel names is written first (R87), then both registers are sent
(R88); whatever the transport answers, they keep the new value (R89). -/
def execSetOperatingMode (handlePresent : Bool) (channel mode : BitVec 8) (s : State) : Result :=
  runCommand .setOperatingMode handlePresent (setOperatingModeFailure channel mode) (State.storeMode channel (modeCode mode))
    (fun t => .powerDac t.modeA t.modeB) s

/-- `SET_REFERENCE_MODE ref_sel` (R100): no register is read or written, and nothing is remembered (R102). -/
def execSetReferenceMode (handlePresent : Bool) (refSel : BitVec 8) (s : State) : Result :=
  runCommand .setReferenceMode handlePresent (setReferenceModeFailure refSel) id (fun _ => wireOfReference refSel) s

end Sys2Proof.Machine
end

