-- ==== Sys2Proof/Machine/Dispatch.lean ====
section
/-! DEFINITION. One arm per operation: which meaning runs it. -/

namespace Sys2Proof.Machine

def exec (i : Instr) (s : State) : Host.Outcome State Fault Refusal :=
  match i with
  | .writeChannel handlePresent channel value => Sys2Proof.Machine.execWriteChannel handlePresent channel value s
  | .setOperatingMode handlePresent channel mode => Sys2Proof.Machine.execSetOperatingMode handlePresent channel mode s
  | .setReferenceMode handlePresent refSel => Sys2Proof.Machine.execSetReferenceMode handlePresent refSel s

end Sys2Proof.Machine
end

