-- ==== Sys2Proof/Machine/Environment.lean ====
section
/-! DEFINITION. What the encoder does with the events that are no request (spec/70_reset_and_hazards.md R141): the transport's
answer, and what the host may do between commands. What the host must not do is refused by name
(spec/93_implementation_defined.md part 1). -/

namespace Sys2Proof.Machine

/-- The transport answers (R68, R39): the command in progress ends with that answer as its status. With no command in progress there is
no call to answer (R67). -/
def answerCall (st : Status) (s : State) : Result :=
  if s.pending.isSome then .next (s.complete st) else .refused .answerWithoutCall

/-- The host populates or changes the configuration (R132): free between commands, refused during one (R138, U6). -/
def populate (writePresent readPresent delayPresent : Bool) (busAddr : BusAddr) (s : State) : Result :=
  if s.pending.isSome then .refused .configurationChangeWhileBusy
  else
    .next { s with writePresent := writePresent, readPresent := readPresent, delayPresent := delayPresent, busAddr := busAddr }

/-- The host reads both mode registers, without a side effect, when no command is in progress (R14, D15). -/
def readModes (s : State) : Result :=
  if s.pending.isSome then .refused .modeReadWhileBusy else .next (s.observe (.modes s.modeA s.modeB))

/-- The host may not write the mode registers after reset (R13, D15, U14). -/
def writeModes (_modeA _modeB : ModeCode) (_s : State) : Result := .refused .hostModeWrite

/-- Reset (R130): the registers take their reset values, nothing is in progress, nothing is sent (R131); the configuration is
unspecified until it is populated, so it is whatever the event says. During a command it is refused (R131, U8). -/
def create (writePresent readPresent delayPresent : Bool) (busAddr : BusAddr) (s : State) : Result :=
  if s.pending.isSome then .refused .resetWhileBusy
  else
    .next
      { State.reset with
        writePresent := writePresent
        readPresent := readPresent
        delayPresent := delayPresent
        busAddr := busAddr
        events := s.events
        trace := s.trace ++ [.created] }

/-- Two or more requests at once (R134, D2, U1). -/
def requestsTogether (_first _second : Instr) (_others : List Instr) (_s : State) : Result := .refused .simultaneousRequests

/-- A bit pattern that is no request (R52). -/
def noRequest (_nbits _w : Nat) (_s : State) : Result := .refused .notARequest

/-- Nothing happens outside: an idle encoder stays idle, and a busy one waits for the transport for as long as it stays silent,
which may be for ever (R70, R137, U9). No status is invented for it. -/
def waitForEvent (s : State) : Result := .next s

/-- The request word `w` presented to the encoder as the next thing that happens, with no other command in progress. -/
def presentWord (nbits w : Nat) (s : State) : State :=
  match decodeTableWord nbits w with
  | some i => { s with pending := none, events := .request i :: s.events }
  | none => { s with pending := none, events := .noRequest nbits w :: s.events }

end Sys2Proof.Machine
end

