-- ==== Sys2Proof/Machine/Step.lean ====
section
/-! DEFINITION. One step: the next thing the outside does, and the encoder's response to it. The encoder fetches nothing (R17); it
takes the requests in the order in which the host presents them. -/

namespace Sys2Proof.Machine

/-- One step of the encoder and its surroundings: a command that reaches the transport takes two, its issue and its completion, and a
command that fails a check takes one (R60, D17). -/
def step (s : State) : Host.Outcome State Fault Refusal :=
  match s.events with
  | [] => waitForEvent s
  | .request i :: rest => exec i (s.withEvents rest)
  | .requestsTogether i j others :: rest => requestsTogether i j others (s.withEvents rest)
  | .answer st :: rest => answerCall st (s.withEvents rest)
  | .populate wp rp dp a :: rest => populate wp rp dp a (s.withEvents rest)
  | .readModes :: rest => readModes (s.withEvents rest)
  | .writeModes a b :: rest => writeModes a b (s.withEvents rest)
  | .create wp rp dp a :: rest => create wp rp dp a (s.withEvents rest)
  | .noRequest nbits w :: rest => noRequest nbits w (s.withEvents rest)

/-- `s` with the request of the table word `w` presented as the very next event, and no command in progress; the rest is unchanged.
The encoder has no program memory (R17), so this stands for the host that presents the request. Log entry 2. -/
def State.withFetchWord (s : State) (nbits w : Nat) : State := presentWord nbits w s

end Sys2Proof.Machine
end

