-- ==== Sys2Proof/Machine/Text.lean ====
section
/-! DEFINITION. The textual form of commands (spec/30_encoding.md R54, D20), as lists of tokens. No behaviour depends on it. The
handle is implicit: a command read from text carries one. -/

namespace Sys2Proof.Machine

/-- A token of a command line: a word, or a number. -/
inductive Token where
  | word (w : String)
  | number (n : Nat)
  deriving DecidableEq, Repr

/-- R54: a channel by name, or by number where the selector is invalid. -/
def channelText (channel : BitVec 8) : Token :=
  if channel = Config.chA then .word "A"
  else if channel = Config.chB then .word "B"
  else if channel = Config.chBoth then .word "BOTH"
  else .number channel.toNat

/-- R54, R47: a mode by name, or by number where it is invalid. -/
def modeText (mode : BitVec 8) : Token :=
  if mode = Config.modeNormal then .word "NORMAL"
  else if mode = Config.modePd1k then .word "PD_1K"
  else if mode = Config.modePd10k then .word "PD_10K"
  else if mode = Config.modeTriState then .word "TRI_STATE"
  else .number mode.toNat

/-- R54, R48: a reference selection by name, or by number where it is invalid. -/
def refSelText (refSel : BitVec 8) : Token :=
  if refSel = Config.refOn then .word "REF_ON"
  else if refSel = Config.refOff then .word "REF_OFF"
  else .number refSel.toNat

/-- The text of a request (R54). -/
def instrText : Instr → List Token
  | .writeChannel _ channel value => [.word "WRITE_CHANNEL", channelText channel, .number value.toNat]
  | .setOperatingMode _ channel mode => [.word "SET_OPERATING_MODE", channelText channel, modeText mode]
  | .setReferenceMode _ refSel => [.word "SET_REFERENCE_MODE", refSelText refSel]

/-- A number of at most `w` bits. -/
def readNumber (w n : Nat) : Option (BitVec w) := if n < 2 ^ w then some (BitVec.ofNat w n) else none

/-- A channel from its token; the document also writes `A_and_B` for both (R54). -/
def readChannel : Token → Option (BitVec 8)
  | .number n => readNumber 8 n
  | .word w =>
    if w = "A" then some Config.chA
    else if w = "B" then some Config.chB
    else if w = "BOTH" ∨ w = "A_and_B" then some Config.chBoth
    else none

/-- A mode from its token (R54). -/
def readMode : Token → Option (BitVec 8)
  | .number n => readNumber 8 n
  | .word w =>
    if w = "NORMAL" then some Config.modeNormal
    else if w = "PD_1K" then some Config.modePd1k
    else if w = "PD_10K" then some Config.modePd10k
    else if w = "TRI_STATE" then some Config.modeTriState
    else none

/-- A reference selection from its token (R54). -/
def readRefSel : Token → Option (BitVec 8)
  | .number n => readNumber 8 n
  | .word w =>
    if w = "REF_ON" then some Config.refOn
    else if w = "REF_OFF" then some Config.refOff
    else none

/-- An output value from its token: a 16-bit number (R54). -/
def readValue : Token → Option (BitVec 16)
  | .number n => readNumber 16 n
  | .word _ => none

/-- A request from its text (R54). -/
def readInstr : List Token → Option Instr
  | [.word op, first, second] =>
    if op = "WRITE_CHANNEL" then
      match readChannel first, readValue second with
      | some channel, some value => some (.writeChannel true channel value)
      | _, _ => none
    else if op = "SET_OPERATING_MODE" then
      match readChannel first, readMode second with
      | some channel, some mode => some (.setOperatingMode true channel mode)
      | _, _ => none
    else none
  | [.word op, first] =>
    if op = "SET_REFERENCE_MODE" then
      match readRefSel first with
      | some refSel => some (.setReferenceMode true refSel)
      | none => none
    else none
  | _ => none

end Sys2Proof.Machine
end

