-- ==== Sys2Proof/Safety.lean ====
section
/-! DEFINITION. The words statements are made of: a state in which a command is accepted, the events the host and the transport may
cause, the order in which the outside sees things, what the bus has carried, and the encoder as the document describes it, a
function that is called and returns a status. -/

namespace Sys2Proof.Machine

/-- No command is in progress (R20). -/
abbrev State.Idle (s : State) : Prop := s.pending = none

/-- A command is accepted and its handle passes the common checks (R61 to R63), the handle's presence apart. -/
abbrev State.Ready (s : State) : Prop := s.pending = none ∧ s.writePresent = true ∧ s.busAddr ≤ 0x7F

/-- The host or the transport may cause this event, given whether a command is in progress (R141). -/
def eventPermitted (busy : Bool) : Event → Bool
  | .request _ => !busy
  | .requestsTogether _ _ _ => false
  | .answer _ => busy
  | .populate _ _ _ _ => !busy
  | .readModes => !busy
  | .writeModes _ _ => false
  | .create _ _ _ _ => !busy
  | .noRequest _ _ => false

/-- What happens next is permitted: a run in which this always holds is one whose host and transport keep the rules. -/
def State.Permitted (s : State) : Prop := ∀ e ∈ s.events.head?, eventPermitted s.pending.isSome e = true

/-- The kind of command a wire command's bytes belong to (R57). -/
def opOfBytes (data : List Byte) : Option Op :=
  match decode data with
  | .ok w => some w.op
  | .error _ => none

/-- The record of a blocking, one-at-a-time encoder (R35), one observation further. `some p`: all is in order and `p` is the command in
progress. After a transport write nothing may be seen but the status of that command. -/
def blockingStep : Option (Option Op) → Obs → Option (Option Op)
  | some none, .call (.write _ data _) => (opOfBytes data).map some
  | some none, .status _ => some none
  | some none, .modes _ _ => some none
  | some none, .created => some none
  | some (some _), .status _ => some none
  | _, _ => none

/-- The command in progress according to the record alone; `none` if the record breaks the order of R35. -/
def pendingOfTrace (trace : List Obs) : Option (Option Op) := trace.foldl blockingStep (some none)

/-- The modes a bus listener knows, one observation further: those of the last power-mode command since the reset (R22, R88). -/
def sentModesStep (m : ModeCode × ModeCode) : Obs → ModeCode × ModeCode
  | .call (.write _ data _) =>
    match decode data with
    | .ok (.powerDac pda pdb) => (pda, pdb)
    | _ => m
  | .created => (0, 0)
  | _ => m

/-- The modes the last power-mode command carried, or the reset modes if there has been none since the reset. -/
def sentModes (trace : List Obs) : ModeCode × ModeCode := trace.foldl sentModesStep (0, 0)

/-- R25, R30, R51: the transport is called for writes only, each to a legal address, of length 3, with a producible wire command. -/
def callLegal : Obs → Prop
  | .call (.write addr data length) =>
    addr ≤ 0x7F ∧ length = 3 ∧ ∃ w : WireCommand, w.producible = true ∧ data = w.encode
  | .call _ => False
  | _ => True

/-- The record agrees with R35 and with the busy state. -/
def State.TraceOrdered (s : State) : Prop := pendingOfTrace s.trace = some s.pending

/-- The mode registers hold what the last power-mode command carried (R22, R89). -/
def State.ModesAsSent (s : State) : Prop := sentModes s.trace = (s.modeA, s.modeB)

/-- Everything the bus has carried is legal. -/
def State.CallsLegal (s : State) : Prop := ∀ o ∈ s.trace, callLegal o

/-- What the transport was given at one bus address, oldest first. -/
def writesAt (addr : BusAddr) (trace : List Obs) : List (List Byte) :=
  trace.filterMap fun
    | .call (.write a data _) => if a = addr then some data else none
    | _ => none

/-- The calls made to the transport, oldest first (R35). -/
def callsOf (trace : List Obs) : List TransportCall :=
  trace.filterMap fun
    | .call c => some c
    | _ => none

/-- R51: the 24-bit words the encoder produces, by their bits. -/
def producedWord (w : BitVec 24) : Prop :=
  ((w.extractLsb' 16 8 = 0x31 ∨ w.extractLsb' 16 8 = 0x38 ∨ w.extractLsb' 16 8 = 0x39) ∧ w.extractLsb' 4 4 = 0) ∨
  (w.extractLsb' 8 16 = 0x4000 ∧ w.extractLsb' 2 4 = 0) ∨
  w = 0x700000 ∨ w = 0x700001

/-- The Device Handle of the document (R10, R15), as far as a call looks at it. -/
structure Handle where
  modeA : ModeCode
  modeB : ModeCode
  writePresent : Bool
  busAddr : BusAddr
  deriving DecidableEq, Repr

/-- What one call leaves behind (R72): the status it returned, the transport call it made, and the handle after it. -/
structure CallResult where
  status : Status
  sent : Option TransportCall
  handle : Handle
  deriving DecidableEq, Repr

/-- The pseudocode of R75, R85 and R100 line by line, as a blocking call: `st` is the transport's answer, looked at only if the
transport is called. It shares no operation with the meanings. -/
def blockingCall (st : Status) (h : Handle) : Instr → CallResult
  | .writeChannel handlePresent channel value =>
    if handlePresent = false then ⟨0xFB, none, h⟩
    else if h.writePresent = false then ⟨0xFB, none, h⟩
    else if h.busAddr > 0x7F then ⟨0xFC, none, h⟩
    else if channel ≠ 0x01 ∧ channel ≠ 0x08 ∧ channel ≠ 0x09 then ⟨0xFC, none, h⟩
    else
      let b0 : Byte := 0x3#4 ++ channel.extractLsb' 0 4
      let b1 : Byte := value.extractLsb' 4 8
      let b2 : Byte := 0x0#4 ++ value.extractLsb' 0 4
      ⟨st, some (.write h.busAddr [b0, b1, b2] 3), h⟩
  | .setOperatingMode handlePresent channel mode =>
    if handlePresent = false then ⟨0xFB, none, h⟩
    else if h.writePresent = false then ⟨0xFB, none, h⟩
    else if h.busAddr > 0x7F then ⟨0xFC, none, h⟩
    else if mode > 3 then ⟨0xFC, none, h⟩
    else if channel = 0x01 then
      let h' := { h with modeA := mode.extractLsb' 0 2 }
      ⟨st, some (.write h.busAddr [0x40, 0x00, h'.modeA ++ 0x0#4 ++ h'.modeB] 3), h'⟩
    else if channel = 0x08 then
      let h' := { h with modeB := mode.extractLsb' 0 2 }
      ⟨st, some (.write h.busAddr [0x40, 0x00, h'.modeA ++ 0x0#4 ++ h'.modeB] 3), h'⟩
    else if channel = 0x09 then
      let h' := { h with modeA := mode.extractLsb' 0 2, modeB := mode.extractLsb' 0 2 }
      ⟨st, some (.write h.busAddr [0x40, 0x00, h'.modeA ++ 0x0#4 ++ h'.modeB] 3), h'⟩
    else ⟨0xFC, none, h⟩
  | .setReferenceMode handlePresent refSel =>
    if handlePresent = false then ⟨0xFB, none, h⟩
    else if h.writePresent = false then ⟨0xFB, none, h⟩
    else if h.busAddr > 0x7F then ⟨0xFC, none, h⟩
    else if refSel > 1 then ⟨0xFC, none, h⟩
    else ⟨st, some (.write h.busAddr [0x70, 0x00, 0x0#7 ++ refSel.extractLsb' 0 1] 3), h⟩

/-- The handle a state stands for. -/
def State.handle (s : State) : Handle := ⟨s.modeA, s.modeB, s.writePresent, s.busAddr⟩

/-- What the outside sees of a finished call: the transport write, if there was one, then the status. -/
def CallResult.seen (r : CallResult) : List Obs :=
  match r.sent with
  | some c => [.call c, .status r.status]
  | none => [.status r.status]

/-- What the outside does for a call: the request, and the transport's answer if the transport is called. -/
def CallResult.schedule (r : CallResult) (i : Instr) (st : Status) : List Event :=
  match r.sent with
  | some _ => [.request i, .answer st]
  | none => [.request i]

/-- A sequence of blocking calls on one handle, each with the answer the transport has ready for it: the events it takes. -/
def callSchedule (h : Handle) : List (Instr × Status) → List Event
  | [] => []
  | (i, st) :: rest => (blockingCall st h i).schedule i st ++ callSchedule (blockingCall st h i).handle rest

/-- What the outside sees of a sequence of blocking calls. -/
def callsSeen (h : Handle) : List (Instr × Status) → List Obs
  | [] => []
  | (i, st) :: rest => (blockingCall st h i).seen ++ callsSeen (blockingCall st h i).handle rest

/-- The handle after a sequence of blocking calls. -/
def handleAfter (h : Handle) : List (Instr × Status) → Handle
  | [] => h
  | (i, st) :: rest => handleAfter (blockingCall st h i).handle rest

end Sys2Proof.Machine
end

