-- ==== Sys2Proof/Certificates/Slice0/Obligations.lean ====
section
/-! DEFINITION. What is claimed of the model, for the provers. Each statement's docstring names the sentence of the spec it formalises.
A statement says "the spec's decision" where the rule it rests on is marked in the spec as the spec's own choice. -/

open Sys2Proof Sys2Proof.Machine

/- ## Reset and the host's own acts -/

/-- R130, R131 (the spec's decisions D9, D23): reset leaves both modes 0 and nothing in progress, and sends nothing; as an event it
gives the configuration whatever values happen to be there, and during a command it is refused. The values of the configuration in
State.reset (log entry 1) are not claimed. -/
def Obligations.ResetClearsModesAndSendsNothing : Prop :=
  (State.reset.modeA = 0 ∧ State.reset.modeB = 0 ∧ State.reset.pending = none ∧ State.reset.trace = []) ∧
  ∀ (s : State) (wp rp dp : Bool) (addr : BusAddr) (rest : List Event), s.events = .create wp rp dp addr :: rest →
    (s.pending = none →
      step s = .next
        { modeA := 0, modeB := 0, pending := none, writePresent := wp, readPresent := rp, delayPresent := dp, busAddr := addr
          events := rest, trace := s.trace ++ [.created] }) ∧
    (s.pending ≠ none → step s = .refused .resetWhileBusy)

/-- R132, R138 (D11): between commands the host sets the bus address and the bindings to what it likes, and nothing else changes;
during a command it may not (D11, U6: refused). -/
def Obligations.ConfigurationChangesOnlyBetweenCommands : Prop :=
  ∀ (s : State) (wp rp dp : Bool) (addr : BusAddr) (rest : List Event), s.events = .populate wp rp dp addr :: rest →
    (s.pending = none →
      step s = .next
        { s with writePresent := wp, readPresent := rp, delayPresent := dp, busAddr := addr, events := rest }) ∧
    (s.pending ≠ none → step s = .refused .configurationChangeWhileBusy)

/-- R14 (the spec's decision D15): the host reads both mode registers between commands, with no side effect; during a command the
model refuses it (U2). -/
def Obligations.HostReadsModesWithoutSideEffect : Prop :=
  ∀ (s : State) (rest : List Event), s.events = .readModes :: rest →
    (s.pending = none →
      step s = .next { s with events := rest, trace := s.trace ++ [.modes s.modeA s.modeB] }) ∧
    (s.pending ≠ none → step s = .refused .modeReadWhileBusy)

/- ## Running what is presented -/

/-- R17, R35: the machine takes requests as the host presents them; nothing stands around `exec` but the request leaving the queue. -/
def Obligations.StepRunsPresentedRequest : Prop :=
  ∀ (s : State) (i : Instr) (rest : List Event), s.events = .request i :: rest → step s = exec i { s with events := rest }

/-- A word that decodes to a request, presented by `withFetchWord`, is run by the very next step (log entry 2). -/
def Obligations.StepRunsDecodedWord : Prop :=
  ∀ (s : State) (nbits w : Nat) (i : Instr), decodeTableWord nbits w = some i →
    step (s.withFetchWord nbits w) = exec i { s with pending := none }

/- ## Wire formats -/

/-- The words of spec/95_test_vectors.md section 2.5, all but `0x32AB0C`: the produced ones decode to the formats and fields that the
table lists. The rest is the model's choice: that the never-produced ones are refused, and by these names (log entry 5, which reads
`0x32AB0C` as a request and so leaves it out here), and the three requests, with `value[15:12] = 0`, the channel BOTH and a handle
(log entries 6 and 16). -/
def Obligations.ListedWordsDecode : Prop :=
  decode [0x31, 0xAB, 0x0C] = .ok (.writeDac 0x1 0xABC) ∧
  decode [0x39, 0xFF, 0x0F] = .ok (.writeDac 0x9 0xFFF) ∧
  decode [0x40, 0x00, 0xC3] = .ok (.powerDac 3 3) ∧
  decode [0x40, 0x00, 0x42] = .ok (.powerDac 1 2) ∧
  decode [0x70, 0x00, 0x01] = .ok (.refSetup 1) ∧
  decode [0x70, 0x00, 0x00] = .ok (.refSetup 0) ∧
  decode [0x31, 0xAB, 0x1C] = .error (.reservedBitsSet 0x1C) ∧
  decode [0x41, 0x00, 0x00] = .error (.selectorNibbleSet 0x1) ∧
  decode [0x40, 0x00, 0x10] = .error (.reservedBitsSet 0x10) ∧
  decode [0x70, 0x00, 0x02] = .error (.reservedBitsSet 0x02) ∧
  decode [0x10, 0xAB, 0x0C] = .error (.unknownCommand 0x1) ∧
  decode [0x00, 0x00, 0x00] = .error (.unknownCommand 0x0) ∧
  decodeTableWord 24 0x31AB0C = some (.writeChannel true 0x01 0x0ABC) ∧
  decodeTableWord 24 0x4000C3 = some (.setOperatingMode true 0x09 0x03) ∧
  decodeTableWord 24 0x700001 = some (.setReferenceMode true 0x01)

/-- Decoding is the inverse of encoding, for every value of every field of every format. R57 says so of the commands that the encoder
produces; that a format W command with a selector nibble other than `0x1`, `0x8`, `0x9`, which it never produces (R51), decodes too
is the model's choice (log entry 5). -/
def Obligations.DecodeInvertsEncode : Prop := ∀ w : WireCommand, decode w.encode = .ok w

/-- R50, R57: the other direction: what decodes is what that command encodes to, so no byte with a reserved bit set decodes. (That
`B0[3:0]` of formats P and F and `B2[7:1]` of format F are zero is the spec's decision D6, log entry 8.) -/
def Obligations.DecodedBytesReencode : Prop :=
  ∀ (bytes : List Byte) (w : WireCommand), decode bytes = .ok w → w.encode = bytes

/-- Read back from the bytes it sends, a well-formed request is itself but for what the wire loses by R57: `value[15:12]`, and in
format P the channel, where the two mode fields come back instead. R57 says only that `value[15:12]` are lost; that they read back as
zero (`value &&& 0x0FFF`) is the model's choice (log entry 6), and that the request read back carries a handle is the model's
inference (log entry 16). -/
def Obligations.RequestReadsBackButForLostBits : Prop :=
  ∀ (i : Instr) (a b : ModeCode), i.wellFormed = true →
    match i with
    | .writeChannel _ channel value => decodeRequest (encode a b i) = .ok (.writeChannel true channel (value &&& 0x0FFF))
    | .setOperatingMode _ _ _ => decode (encode a b i) = .ok (.powerDac a b)
    | .setReferenceMode _ refSel => decodeRequest (encode a b i) = .ok (.setReferenceMode true refSel)

/-- R43: format W bit by bit, for every selector and every value; a valid selector makes `B0` one of `0x31`, `0x38`, `0x39`. -/
def Obligations.FormatWLayout : Prop :=
  ∀ (a b : ModeCode) (hp : Bool) (channel : BitVec 8) (value : BitVec 16),
    encode a b (.writeChannel hp channel value) =
      [0x3#4 ++ channel.extractLsb' 0 4, value.extractLsb' 4 8, 0x0#4 ++ value.extractLsb' 0 4] ∧
    (channel = 0x01 → (encode a b (.writeChannel hp channel value)).head? = some 0x31) ∧
    (channel = 0x08 → (encode a b (.writeChannel hp channel value)).head? = some 0x38) ∧
    (channel = 0x09 → (encode a b (.writeChannel hp channel value)).head? = some 0x39)

/-- R44 (its `B0` is the spec's decision D6): format P bit by bit; the channel and the mode of the request do not appear. -/
def Obligations.FormatPLayout : Prop :=
  ∀ (a b : ModeCode) (hp : Bool) (channel mode : BitVec 8),
    encode a b (.setOperatingMode hp channel mode) = [0x40#8, 0x00#8, a ++ 0x0#4 ++ b]

/-- R45 (its reserved bits are the spec's decision D6): format F bit by bit. -/
def Obligations.FormatFLayout : Prop :=
  ∀ (a b : ModeCode) (hp : Bool) (refSel : BitVec 8),
    encode a b (.setReferenceMode hp refSel) = [0x70#8, 0x00#8, 0x0#7 ++ refSel.extractLsb' 0 1]

/-- R51: the words a well-formed request can send are exactly the ones R51 lists. Its words `0x4000pp`, `0x700000` and `0x700001`
rest on the spec's decision D6 (log entry 8). -/
def Obligations.ProducedWordsAreExactlyTheListed : Prop :=
  ∀ w : BitVec 24, (∃ (i : Instr) (a b : ModeCode), i.wellFormed = true ∧ wordOfBytes (encode a b i) = some w) ↔ producedWord w

/-- R51, "12306 words in all" (its words `0x4000pp`, `0x700000` and `0x700001` rest on the spec's decision D6): so many
different words are the word of some well-formed request, with some mode registers. -/
def Obligations.ProducedWordsNumber12306 : Prop :=
  ∃ l : List (BitVec 24), l.Nodup ∧ l.length = 12306 ∧
    ∀ w, w ∈ l ↔ ∃ (i : Instr) (a b : ModeCode), i.wellFormed = true ∧ wordOfBytes (encode a b i) = some w

/-- Log entry 6: the request read from a producible wire command sends exactly that command, from every ready state whose registers
hold the field that the request does not name. -/
def Obligations.ReadRequestSendsItsWireCommand : Prop :=
  ∀ (s : State) (w : WireCommand), s.Ready → w.producible = true →
    (∀ a b, w = .powerDac a b → a = b ∨ (a = 0 ∧ s.modeA = 0) ∨ (a ≠ 0 ∧ s.modeB = b)) →
    ∃ t, exec w.request s = .next t ∧ t.trace = s.trace ++ [.call (.write s.busAddr w.encode 3)]

/-- A command read back from the tokens of its text is the command, with every operand at every value. The spellings are R54's (the
spec's decision D20); that the text is a list of tokens, without digits or spacing, is the model's choice (log entry 17), and that a
command read from it carries a handle its inference (log entry 16). -/
def Obligations.TextReadsBack : Prop :=
  ∀ i : Instr, i.handlePresent = true → readInstr (instrText i) = some i

/- ## What each operation does -/

/-- R75: all of `WRITE_CHANNEL`'s pseudocode, for every operand; the last clause is its last two lines, the transport's answer. -/
def Obligations.WriteChannelFollowsItsPseudocode : Prop :=
  ∀ (s : State) (hp : Bool) (channel : BitVec 8) (value : BitVec 16), s.pending = none →
    (exec (.writeChannel hp channel value) s =
      if hp = false then .next { s with trace := s.trace ++ [.status 0xFB] }
      else if s.writePresent = false then .next { s with trace := s.trace ++ [.status 0xFB] }
      else if s.busAddr > 0x7F then .next { s with trace := s.trace ++ [.status 0xFC] }
      else if channel ≠ 0x01 ∧ channel ≠ 0x08 ∧ channel ≠ 0x09 then .next { s with trace := s.trace ++ [.status 0xFC] }
      else .next
        { s with
          pending := some .writeChannel
          trace := s.trace ++
            [.call (.write s.busAddr
              [0x3#4 ++ channel.extractLsb' 0 4, value.extractLsb' 4 8, 0x0#4 ++ value.extractLsb' 0 4] 3)] }) ∧
    ∀ (t : State) (st : Status) (rest : List Event), exec (.writeChannel hp channel value) s = .next t → t.pending ≠ none →
      t.events = .answer st :: rest →
      step t = .next { t with pending := none, events := rest, trace := t.trace ++ [.status st] }

/-- R85 (the command byte is the spec's decision D6): all of `SET_OPERATING_MODE`'s pseudocode, the last clause its last two lines. -/
def Obligations.SetOperatingModeFollowsItsPseudocode : Prop :=
  ∀ (s : State) (hp : Bool) (channel mode : BitVec 8), s.pending = none →
    (exec (.setOperatingMode hp channel mode) s =
      if hp = false then .next { s with trace := s.trace ++ [.status 0xFB] }
      else if s.writePresent = false then .next { s with trace := s.trace ++ [.status 0xFB] }
      else if s.busAddr > 0x7F then .next { s with trace := s.trace ++ [.status 0xFC] }
      else if mode > 3 then .next { s with trace := s.trace ++ [.status 0xFC] }
      else if channel = 0x01 then .next
        { s with
          modeA := mode.extractLsb' 0 2
          pending := some .setOperatingMode
          trace := s.trace ++ [.call (.write s.busAddr [0x40, 0x00, mode.extractLsb' 0 2 ++ 0x0#4 ++ s.modeB] 3)] }
      else if channel = 0x08 then .next
        { s with
          modeB := mode.extractLsb' 0 2
          pending := some .setOperatingMode
          trace := s.trace ++ [.call (.write s.busAddr [0x40, 0x00, s.modeA ++ 0x0#4 ++ mode.extractLsb' 0 2] 3)] }
      else if channel = 0x09 then .next
        { s with
          modeA := mode.extractLsb' 0 2
          modeB := mode.extractLsb' 0 2
          pending := some .setOperatingMode
          trace := s.trace ++
            [.call (.write s.busAddr [0x40, 0x00, mode.extractLsb' 0 2 ++ 0x0#4 ++ mode.extractLsb' 0 2] 3)] }
      else .next { s with trace := s.trace ++ [.status 0xFC] }) ∧
    ∀ (t : State) (st : Status) (rest : List Event), exec (.setOperatingMode hp channel mode) s = .next t → t.pending ≠ none →
      t.events = .answer st :: rest →
      step t = .next { t with pending := none, events := rest, trace := t.trace ++ [.status st] }

/-- R100 (the reserved bits are the spec's decision D6): all of `SET_REFERENCE_MODE`'s pseudocode, the last clause its last two lines. -/
def Obligations.SetReferenceModeFollowsItsPseudocode : Prop :=
  ∀ (s : State) (hp : Bool) (refSel : BitVec 8), s.pending = none →
    (exec (.setReferenceMode hp refSel) s =
      if hp = false then .next { s with trace := s.trace ++ [.status 0xFB] }
      else if s.writePresent = false then .next { s with trace := s.trace ++ [.status 0xFB] }
      else if s.busAddr > 0x7F then .next { s with trace := s.trace ++ [.status 0xFC] }
      else if refSel > 1 then .next { s with trace := s.trace ++ [.status 0xFC] }
      else .next
        { s with
          pending := some .setReferenceMode
          trace := s.trace ++ [.call (.write s.busAddr [0x70, 0x00, 0x0#7 ++ refSel.extractLsb' 0 1] 3)] }) ∧
    ∀ (t : State) (st : Status) (rest : List Event), exec (.setReferenceMode hp refSel) s = .next t → t.pending ≠ none →
      t.events = .answer st :: rest →
      step t = .next { t with pending := none, events := rest, trace := t.trace ++ [.status st] }

/-- R68: a `WRITE_CHANNEL` with valid operands on a populated handle completes in two steps, whatever the transport answers: one
transport write, and the answer as the status; no register and no configuration input changes. -/
def Obligations.WriteChannelCompletes : Prop :=
  ∀ (s : State) (channel : BitVec 8) (value : BitVec 16) (st : Status) (rest : List Event),
    s.Ready → channel = 0x01 ∨ channel = 0x08 ∨ channel = 0x09 →
    s.events = .request (.writeChannel true channel value) :: .answer st :: rest →
    Sys2Proof.core.run 2 s = .next
      { s with
        events := rest
        trace := s.trace ++
          [.call (.write s.busAddr
            [0x3#4 ++ channel.extractLsb' 0 4, value.extractLsb' 4 8, 0x0#4 ++ value.extractLsb' 0 4] 3), .status st] }

/-- R68, R89: the same of `SET_OPERATING_MODE`; the mode registers hold the new modes at the end, whatever the transport answers. -/
def Obligations.SetOperatingModeCompletes : Prop :=
  ∀ (s : State) (channel mode : BitVec 8) (st : Status) (rest : List Event) (a b : ModeCode),
    s.Ready → mode ≤ 3 → channel = 0x01 ∨ channel = 0x08 ∨ channel = 0x09 →
    a = (if channel = 0x08 then s.modeA else mode.extractLsb' 0 2) →
    b = (if channel = 0x01 then s.modeB else mode.extractLsb' 0 2) →
    s.events = .request (.setOperatingMode true channel mode) :: .answer st :: rest →
    Sys2Proof.core.run 2 s = .next
      { s with
        modeA := a
        modeB := b
        events := rest
        trace := s.trace ++ [.call (.write s.busAddr [0x40, 0x00, a ++ 0x0#4 ++ b] 3), .status st] }

/-- R68: the same of `SET_REFERENCE_MODE`: "off" (1) sends bit 1, "on" (0) sends bit 0; no register changes. -/
def Obligations.SetReferenceModeCompletes : Prop :=
  ∀ (s : State) (refSel : BitVec 8) (st : Status) (rest : List Event), s.Ready → refSel ≤ 1 →
    s.events = .request (.setReferenceMode true refSel) :: .answer st :: rest →
    Sys2Proof.core.run 2 s = .next
      { s with
        events := rest
        trace := s.trace ++
          [.call (.write s.busAddr [0x70, 0x00, if refSel = 1 then 0x01 else 0x00] 3), .status st] }

/-- R49: every one of the 65536 values is sent, as `value[11:4]` and `0b0000 ‖ value[3:0]`, which is `(value >> 4) & 0xFF` and
`value & 0x0F`; the four bits above reach no byte. -/
def Obligations.EveryValueIsSentByShiftAndMask : Prop :=
  ∀ (s : State) (channel : BitVec 8) (value : BitVec 16), s.Ready → channel = 0x01 ∨ channel = 0x08 ∨ channel = 0x09 →
    ∃ t b0, exec (.writeChannel true channel value) s = .next t ∧
      t.trace = s.trace ++
        [.call (.write s.busAddr [b0, value.extractLsb' 4 8, 0x0#4 ++ value.extractLsb' 0 4] 3)] ∧
      value.extractLsb' 4 8 = ((value >>> 4) &&& 0xFF).setWidth 8 ∧
      0x0#4 ++ value.extractLsb' 0 4 = (value &&& 0x0F).setWidth 8

/-- R49, R76: "two values that differ only in bits 15..12" are the same command, in every state and for every channel. -/
def Obligations.TopValueBitsNeverMatter : Prop :=
  ∀ (s : State) (hp : Bool) (channel : BitVec 8) (v w : BitVec 16), v.extractLsb' 0 12 = w.extractLsb' 0 12 →
    exec (.writeChannel hp channel v) s = exec (.writeChannel hp channel w) s

/-- R87: the register update of `SET_OPERATING_MODE`, its whole table: a command that passes its checks writes exactly the registers
its channel names, and one that does not writes neither. -/
def Obligations.ModeUpdateByChannel : Prop :=
  ∀ (s : State) (hp : Bool) (channel mode : BitVec 8), s.pending = none →
    ∃ t, exec (.setOperatingMode hp channel mode) s = .next t ∧
      ((hp = true ∧ s.writePresent = true ∧ s.busAddr ≤ 0x7F ∧ mode ≤ 3) →
        (channel = 0x01 → t.modeA = mode.extractLsb' 0 2 ∧ t.modeB = s.modeB) ∧
        (channel = 0x08 → t.modeA = s.modeA ∧ t.modeB = mode.extractLsb' 0 2) ∧
        (channel = 0x09 → t.modeA = mode.extractLsb' 0 2 ∧ t.modeB = mode.extractLsb' 0 2) ∧
        (channel ≠ 0x01 ∧ channel ≠ 0x08 ∧ channel ≠ 0x09 →
          t.modeA = s.modeA ∧ t.modeB = s.modeB ∧ t.pending = none ∧ t.trace = s.trace ++ [.status 0xFC])) ∧
      (¬(hp = true ∧ s.writePresent = true ∧ s.busAddr ≤ 0x7F ∧ mode ≤ 3) → t.modeA = s.modeA ∧ t.modeB = s.modeB)

/-- R88: whichever channel is set, the power-mode byte carries both registers as they stand after the update:
`B2 = MODE_A ‖ 0b0000 ‖ MODE_B`, which is `(MODE_A << 6) | MODE_B`. -/
def Obligations.PowerByteCarriesBothModes : Prop :=
  ∀ (s : State) (channel mode : BitVec 8), s.Ready → mode ≤ 3 → channel = 0x01 ∨ channel = 0x08 ∨ channel = 0x09 →
    ∃ t b0 b1, exec (.setOperatingMode true channel mode) s = .next t ∧
      t.trace = s.trace ++
        [.call (.write s.busAddr [b0, b1, t.modeA ++ 0x0#4 ++ t.modeB] 3)] ∧
      t.modeA ++ 0x0#4 ++ t.modeB = (t.modeA.setWidth 8 <<< 6) ||| t.modeB.setWidth 8

/-- R89: update, then send, no rollback: the registers hold the new modes when the transport is called, and still do after any answer,
and for as long as there is none; and after any answer the next mode command sends them again as the other channel's mode. (The last
clause is not R89's words: that a silent transport is an empty list of events, with steps that go on, is the model's choice, log
entry 3.) -/
def Obligations.FailedTransmitKeepsNewModes : Prop :=
  ∀ (s t : State) (hp : Bool) (channel mode : BitVec 8), exec (.setOperatingMode hp channel mode) s = .next t → t.pending ≠ none →
    (channel = 0x01 ∨ channel = 0x09 → t.modeA = mode.extractLsb' 0 2) ∧
    (channel = 0x08 ∨ channel = 0x09 → t.modeB = mode.extractLsb' 0 2) ∧
    (∀ (st : Status) (rest : List Event), t.events = .answer st :: rest →
      ∃ u, step t = .next u ∧ u.modeA = t.modeA ∧ u.modeB = t.modeB ∧ u.pending = none ∧ u.trace = t.trace ++ [.status st] ∧
        ∀ next : BitVec 8, next ≤ 3 →
          (∃ v b0 b1, exec (.setOperatingMode true 0x01 next) u = .next v ∧
            v.trace = u.trace ++ [.call (.write u.busAddr [b0, b1, next.extractLsb' 0 2 ++ 0x0#4 ++ t.modeB] 3)]) ∧
          (∃ v b0 b1, exec (.setOperatingMode true 0x08 next) u = .next v ∧
            v.trace = u.trace ++ [.call (.write u.busAddr [b0, b1, t.modeA ++ 0x0#4 ++ next.extractLsb' 0 2] 3)])) ∧
    (∀ k u, t.events = [] → Sys2Proof.core.run k t = .next u → u.modeA = t.modeA ∧ u.modeB = t.modeB)

/-- R91: the first mode command after reset programs the other channel to mode 0. -/
def Obligations.FirstModeCommandSendsZeroForOtherChannel : Prop :=
  ∀ (s : State) (mode : BitVec 8), s.Ready → s.modeA = State.reset.modeA → s.modeB = State.reset.modeB → mode ≤ 3 →
    (∃ t, exec (.setOperatingMode true 0x01 mode) s = .next t ∧
      t.trace = s.trace ++ [.call (.write s.busAddr [0x40, 0x00, mode.extractLsb' 0 2 ++ 0x0#4 ++ 0#2] 3)]) ∧
    (∃ t, exec (.setOperatingMode true 0x08 mode) s = .next t ∧
      t.trace = s.trace ++ [.call (.write s.busAddr [0x40, 0x00, 0#2 ++ 0x0#4 ++ mode.extractLsb' 0 2] 3)])

/-- R34, R79, R90, R102: a command that was completed and is presented again sends the same bytes again; nothing is suppressed or
merged, and a mode command does not change the registers the second time. -/
def Obligations.RepeatedCommandIsSentAgain : Prop :=
  ∀ (s t u : State) (i : Instr) (c : TransportCall) (st : Status),
    exec i s = .next t → t.trace = s.trace ++ [.call c] → answerCall st t = .next u →
    ∃ v, exec i u = .next v ∧ v.trace = u.trace ++ [.call c] ∧ v.modeA = u.modeA ∧ v.modeB = u.modeB

/- ## Checks and status codes -/

/-- R110, R53 (the eight bits are the spec's decision D7): the six codes on their wires. -/
def Obligations.StatusCodeBits : Prop :=
  statusBits .ok = 0x00 ∧ statusBits .error = 0xFF ∧ statusBits .busy = 0xFE ∧ statusBits .timeout = 0xFD ∧
  statusBits .invalidParameter = 0xFC ∧ statusBits .nullReference = 0xFB ∧
  ∀ c, (statusBits c).toInt = statusNumber c

/-- R61, R62, R114: with no handle, or no write capability, every operation returns `NullReference`, "regardless of other
parameters": whatever the bus address and the operands are. -/
def Obligations.AbsenceGivesNullReference : Prop :=
  ∀ (s : State) (i : Instr), s.pending = none → (i.handlePresent = false ∨ s.writePresent = false) →
    exec i s = .next { s with trace := s.trace ++ [.status 0xFB] }

/-- R63: with handle and write capability, an address above `0x7F` gives `InvalidParameter` in every operation, "independent of other
valid parameters". -/
def Obligations.IllegalAddressGivesInvalidParameter : Prop :=
  ∀ (s : State) (i : Instr), s.pending = none → i.handlePresent = true → s.writePresent = true → s.busAddr > 0x7F →
    exec i s = .next { s with trace := s.trace ++ [.status 0xFC] }

/-- R111, R62: the encoder itself ends a command with `NullReference` for these two causes and for no other. -/
def Obligations.NullReferenceCauses : Prop :=
  ∀ (s : State) (i : Instr), s.pending = none →
    (exec i s = .next { s with trace := s.trace ++ [.status 0xFB] } ↔ i.handlePresent = false ∨ s.writePresent = false)

/-- R112: the encoder itself ends a command with `InvalidParameter` for the causes of R112's table and for no other. -/
def Obligations.InvalidParameterCauses : Prop :=
  ∀ (s : State) (i : Instr), s.pending = none →
    (exec i s = .next { s with trace := s.trace ++ [.status 0xFC] } ↔
      i.handlePresent = true ∧ s.writePresent = true ∧
        (s.busAddr > 0x7F ∨
          match i with
          | .writeChannel _ channel _ => channel ≠ 0x01 ∧ channel ≠ 0x08 ∧ channel ≠ 0x09
          | .setOperatingMode _ channel mode => mode > 3 ∨ (channel ≠ 0x01 ∧ channel ≠ 0x08 ∧ channel ≠ 0x09)
          | .setReferenceMode _ refSel => refSel > 1))

/-- R65, R117: a command that fails any check does nothing else: the state after it is the state before it, the status it returned is
all that the outside sees, and the encoder is ready for the next command. -/
def Obligations.FailedCheckChangesNothing : Prop :=
  ∀ (s : State) (i : Instr), s.pending = none → ¬(i.wellFormed = true ∧ s.writePresent = true ∧ s.busAddr ≤ 0x7F) →
    ∃ st, (st = 0xFB ∨ st = 0xFC) ∧ exec i s = .next { s with trace := s.trace ++ [.status st] }

/-- R67: a command that passed its checks makes exactly one observation when it is taken, the one transport write of its three bytes to
the handle's address, and whatever the answer is, it then makes no other call; a command that failed one only returns its status. -/
def Obligations.OneWriteOfThreeBytesPerCommand : Prop :=
  ∀ (s t : State) (i : Instr), exec i s = .next t →
    (i.wellFormed = true ∧ s.writePresent = true ∧ s.busAddr ≤ 0x7F ∧ t.pending = some i.op ∧
      ∃ b0 b1 b2, t.trace = s.trace ++ [.call (.write s.busAddr [b0, b1, b2] 3)] ∧
        [b0, b1, b2] = encode t.modeA t.modeB i ∧
        ∀ (st : Status) (rest : List Event), t.events = .answer st :: rest →
          ∃ u, step t = .next u ∧ u.pending = none ∧ u.trace = t.trace ++ [.status st]) ∨
    (¬(i.wellFormed = true ∧ s.writePresent = true ∧ s.busAddr ≤ 0x7F) ∧ t.pending = none ∧
      ∃ st, t.trace = s.trace ++ [.status st])

/-- R68, R39 (D8): the transport's answer, whatever it is, is the status of the command in progress, bit for bit, and nothing else
changes. -/
def Obligations.AnswerIsReturnedUnchanged : Prop :=
  ∀ (s : State) (st : Status) (rest : List Event), s.events = .answer st :: rest → s.pending ≠ none →
    step s = .next { s with pending := none, events := rest, trace := s.trace ++ [.status st] }

/-- R110, R113: a status that a step returns is the transport's answer to the command in progress, or one of the encoder's own two
codes for a request it has just been presented with. -/
def Obligations.EveryStatusIsAnswerOrOwnCode : Prop :=
  ∀ (s t : State) (st : Status), step s = .next t → t.trace = s.trace ++ [.status st] →
    (∃ rest, s.events = .answer st :: rest ∧ s.pending ≠ none) ∨
    (∃ i rest, s.events = .request i :: rest ∧ s.pending = none ∧ (st = 0xFB ∨ st = 0xFC))

/- ## Frames and independence -/

/-- What no operation changes (R13, R15), for all three: the configuration, the events to come, the record of the past, and what was
sent to any other bus address. The two operations that are not `SET_OPERATING_MODE` change no mode register either. -/
def Obligations.CommandsLeaveTheRestUnchanged : Prop :=
  ∀ (s t : State) (i : Instr), exec i s = .next t →
    t.writePresent = s.writePresent ∧ t.readPresent = s.readPresent ∧ t.delayPresent = s.delayPresent ∧ t.busAddr = s.busAddr ∧
    t.events = s.events ∧ s.trace <+: t.trace ∧
    (∀ addr, addr ≠ s.busAddr → writesAt addr t.trace = writesAt addr s.trace) ∧
    (i.op ≠ .setOperatingMode → t.modeA = s.modeA ∧ t.modeB = s.modeB)

/-- R13 (its last sentence is the spec's decision D15): whatever happens, only a `SET_OPERATING_MODE` request and a reset change a
mode register, and a host write of the registers is refused. -/
def Obligations.OnlyModeCommandAndResetChangeModes : Prop :=
  (∀ s t : State, step s = .next t → (t.modeA ≠ s.modeA ∨ t.modeB ≠ s.modeB) →
    (∃ hp channel mode rest, s.events = .request (.setOperatingMode hp channel mode) :: rest ∧ t.pending = some .setOperatingMode) ∨
    (∃ wp rp dp addr rest, s.events = .create wp rp dp addr :: rest)) ∧
  ∀ (s : State) (a b : ModeCode) (rest : List Event), s.events = .writeModes a b :: rest → step s = .refused .hostModeWrite

/-- R71, R78: `WRITE_CHANNEL` and `SET_REFERENCE_MODE` do the same in any two states that differ only in the mode registers, and
leave them where they were. -/
def Obligations.OtherCommandsIgnoreModes : Prop :=
  ∀ (s : State) (i : Instr) (a b : ModeCode), i.op ≠ .setOperatingMode →
    (∀ t, exec i s = .next t → exec i { s with modeA := a, modeB := b } = .next { t with modeA := a, modeB := b }) ∧
    (∀ r, exec i s = .refused r → exec i { s with modeA := a, modeB := b } = .refused r)

/-- R122 and R27, R28 (these two derived in the spec): no command looks at the read and delay bindings, and no step calls either
capability. -/
def Obligations.ReadAndDelayAreNeverUsed : Prop :=
  (∀ (s : State) (i : Instr) (r d : Bool),
    (∀ t, exec i s = .next t →
      exec i { s with readPresent := r, delayPresent := d } = .next { t with readPresent := r, delayPresent := d }) ∧
    (∀ e, exec i s = .refused e → exec i { s with readPresent := r, delayPresent := d } = .refused e)) ∧
  ∀ s t : State, step s = .next t →
    (∀ addr n, TransportCall.read addr n ∈ callsOf t.trace → TransportCall.read addr n ∈ callsOf s.trace) ∧
    (∀ d, TransportCall.delayMicroseconds d ∈ callsOf t.trace → TransportCall.delayMicroseconds d ∈ callsOf s.trace)

/- ## Order, blocking, refusals -/

/-- R134 (the spec's decision D13): while a command is in progress no request is taken, and never two at once. -/
def Obligations.RequestWhileBusyIsRefused : Prop :=
  (∀ (s : State) (i : Instr), s.pending ≠ none → exec i s = .refused .requestWhileBusy) ∧
  ∀ (s : State) (i j : Instr) (others : List Instr) (rest : List Event),
    s.events = .requestsTogether i j others :: rest → step s = .refused .simultaneousRequests

/-- R70, R137 (the spec's decision D14): with a silent transport a command lasts for ever: it is still in progress and no status has
been returned. That silence is an empty list of events, and that a step then answers the same state, is the model's choice (log
entry 3): vector P5 of spec/95_test_vectors.md says that a model has no further step. -/
def Obligations.SilentTransportHangsForEver : Prop :=
  ∀ (s : State) (k : Nat), s.pending ≠ none → s.events = [] → Sys2Proof.core.run k s = .next s

/-- A step is refused exactly on an event that is not permitted, and it never faults. From the spec come the host's duties of R141 and
that the encoder "has no fatal conditions of its own" (R69). The model's own are the refusal of `noRequest` (log entry 2), the
self-step on no event (log entry 3), the refusal of an answer without a call (log entry 4), that a breach of the host's duties is an
event with a refusal of its own (log entry 12), and the empty type of faults (log entry 15). -/
def Obligations.OnlyForbiddenEventsAreRefused : Prop :=
  ∀ s : State, (s.Permitted ↔ ∃ t, step s = .next t) ∧ (¬s.Permitted ↔ ∃ r, step s = .refused r) ∧ ∀ r, step s ≠ .fault r

/-- Along a run whose host and transport keep the rules, nothing is refused, however long it is (R69, R118). Which events keep the
rules is `eventPermitted`, and a step on no event answers the same state: the model's choices of log entries 2, 3, 4, 12 and 15. -/
def Obligations.KeptRulesRunForEver : Prop :=
  ∀ s : State, (∀ k t, Sys2Proof.core.run k s = .next t → t.Permitted) → ∀ k, ∃ t, Sys2Proof.core.run k s = .next t

/-- The state right after reset (R21, R130) has nothing in progress and an empty record, and so meets the three invariants of
the steps. For `ModesAsSent` the registers of State.reset are the modes 0, 0 that an empty record stands for: the spec's decision D9
(log entry 7). -/
def Obligations.InvariantsHoldAtReset : Prop :=
  State.reset.TraceOrdered ∧ State.reset.ModesAsSent ∧ State.reset.CallsLegal

/-- R35, R20: one access at a time. Every step keeps the record in order: after each transport write comes the status of that command
before anything else, and `pending` is the kind of the command whose write is the last thing seen. -/
def Obligations.StepKeepsTraceOrdered : Prop :=
  ∀ s t : State, s.TraceOrdered → step s = .next t → t.TraceOrdered

/-- R22, R88, R89 (R22 is derived in the spec): every step keeps the mode registers equal to what the last power-mode command since
the reset carried, answered or not. Where there was none since the reset, they are the modes 0, 0 that a reset leaves: the spec's
decision D9 (log entry 7). -/
def Obligations.StepKeepsModesAsSent : Prop :=
  ∀ s t : State, s.ModesAsSent → step s = .next t → t.ModesAsSent

/-- R25, R30, R51: every step keeps the bus legal: writes only, to addresses up to `0x7F`, of length 3, each a wire command that the
encoder can produce (the words of R51, whose formats P and F rest on the spec's decision D6, log entry 8). -/
def Obligations.StepKeepsCallsLegal : Prop :=
  ∀ s t : State, s.CallsLegal → step s = .next t → t.CallsLegal

/-- R60, R72, R35: for every list of commands, valid or not, and every answer of the transport, the two-step machine does what the
document's blocking functions do, called one after the other: the same transport writes, statuses and modes, in the same order. The
command bytes `0x40` and `0x70` and the reserved bits beside them are the spec's decision D6. -/
def Obligations.MachineRefinesBlockingCalls : Prop :=
  ∀ (calls : List (Instr × Status)) (s : State) (rest : List Event), s.pending = none →
    s.events = callSchedule s.handle calls ++ rest →
    Sys2Proof.core.run (callSchedule s.handle calls).length s = .next
      { s with
        modeA := (handleAfter s.handle calls).modeA
        modeB := (handleAfter s.handle calls).modeB
        events := rest
        trace := s.trace ++ callsSeen s.handle calls }
end

