-- ==== Sys2Proof/Laws/Decode.lean ====
section
/-! SUPPORT. The small lemmas of the wire formats: what each field of a built byte reads back as. -/

namespace Sys2Proof

@[simp] theorem commandByte_command : ∀ c s : BitVec 4, fieldOf 4 4 (commandByte c s) = c := by decide
@[simp] theorem commandByte_selector : ∀ c s : BitVec 4, fieldOf 4 0 (commandByte c s) = s := by decide

/-- The command byte is the two nibbles side by side (R41). -/
theorem commandByte_eq_append : ∀ c s : BitVec 4, commandByte c s = c ++ s := by decide

@[simp] theorem lowNibble_top : ∀ n : BitVec 4, fieldOf 4 4 (fieldAt 0 n) = 0 := by decide
@[simp] theorem lowNibble_low : ∀ n : BitVec 4, fieldOf 4 0 (fieldAt 0 n) = n := by decide

/-- A byte whose top nibble is zero is its low nibble. -/
theorem lowNibble_of_top : ∀ b : Byte, fieldOf 4 4 b = 0 → fieldAt 0 (fieldOf 4 0 b) = b := by decide

/-- A byte is its two nibbles. -/
theorem commandByte_fields : ∀ b : Byte, commandByte (fieldOf 4 4 b) (fieldOf 4 0 b) = b := by decide

/-- The power-mode byte of format P (R44). -/
def powerByte (pda pdb : ModeCode) : Byte := fieldAt Config.pdaPos pda ||| fieldAt Config.pdbPos pdb

@[simp] theorem powerByte_pda : ∀ a b : ModeCode, fieldOf 2 Config.pdaPos (powerByte a b) = a := by decide
@[simp] theorem powerByte_pdb : ∀ a b : ModeCode, fieldOf 2 Config.pdbPos (powerByte a b) = b := by decide
@[simp] theorem powerByte_reserved : ∀ a b : ModeCode, powerByte a b &&& ~~~powerFieldMask = 0 := by decide

/-- The power-mode byte in the layout of R44. -/
theorem powerByte_eq_append : ∀ a b : ModeCode, powerByte a b = a ++ 0#4 ++ b := by decide

/-- A byte whose reserved bits are zero is its two mode fields. -/
theorem powerByte_of_reserved : ∀ b : Byte, b &&& ~~~powerFieldMask = 0 →
    powerByte (fieldOf 2 Config.pdaPos b) (fieldOf 2 Config.pdbPos b) = b := by decide

@[simp] theorem refByte_ref : ∀ r : BitVec 1, fieldOf 1 Config.refPos (fieldAt Config.refPos r) = r := by decide
@[simp] theorem refByte_reserved : ∀ r : BitVec 1, fieldAt Config.refPos r &&& ~~~refFieldMask = 0 := by decide

/-- A byte whose reserved bits are zero is its reference bit. -/
theorem refByte_of_reserved : ∀ b : Byte, b &&& ~~~refFieldMask = 0 →
    fieldAt Config.refPos (fieldOf 1 Config.refPos b) = b := by decide

/-- The two parts of a 12-bit value side by side are the value. -/
@[simp] theorem value_parts (v : BitVec 12) : v.extractLsb' 4 8 ++ v.extractLsb' 0 4 = v := by
  apply BitVec.eq_of_getLsbD_eq
  intro i hi
  rw [BitVec.getLsbD_append]
  split_ifs with h
  · simp [h]
  · have h8 : i - 4 < 8 := by omega
    have hs : 4 + (i - 4) = i := by omega
    simp [h8, hs]

end Sys2Proof
end

