-- ==== Sys2Proof/Laws/Operands.lean ====
section
/-! SUPPORT. Each operand check as the arithmetic it stands for, and the two status codes the encoder makes. -/

namespace Sys2Proof.Machine

/-- R46. -/
theorem channelValid_iff (c : BitVec 8) : channelValid c = true ↔ c = 0x01 ∨ c = 0x08 ∨ c = 0x09 := by
  simp [channelValid, Config.chA, Config.chB, Config.chBoth, or_assoc]

/-- R47. -/
theorem modeValid_iff (m : BitVec 8) : modeValid m = true ↔ m ≤ 3 := decide_eq_true_iff

/-- R48. -/
theorem refSelValid_iff (r : BitVec 8) : refSelValid r = true ↔ r ≤ 1 := decide_eq_true_iff

/-- R63. -/
theorem busAddrValid_iff (a : BusAddr) : busAddrValid a = true ↔ a ≤ 0x7F := decide_eq_true_iff

/-- R53: `NullReference` on its wires. -/
@[simp] theorem statusBits_nullReference : statusBits .nullReference = 0xFB := by decide

/-- R53: `InvalidParameter` on its wires. -/
@[simp] theorem statusBits_invalidParameter : statusBits .invalidParameter = 0xFC := by decide

end Sys2Proof.Machine
end

