-- ==== Sys2Proof/Laws/State.lean ====
section
/-! SUPPORT. What each update of the state does to each field: the small lemmas that keep later proofs from unfolding a record
update. -/

namespace Sys2Proof.Machine

variable (s : State)

@[simp] theorem State.observe_modeA (o : Obs) : (s.observe o).modeA = s.modeA := rfl
@[simp] theorem State.observe_modeB (o : Obs) : (s.observe o).modeB = s.modeB := rfl
@[simp] theorem State.observe_pending (o : Obs) : (s.observe o).pending = s.pending := rfl
@[simp] theorem State.observe_writePresent (o : Obs) : (s.observe o).writePresent = s.writePresent := rfl
@[simp] theorem State.observe_readPresent (o : Obs) : (s.observe o).readPresent = s.readPresent := rfl
@[simp] theorem State.observe_delayPresent (o : Obs) : (s.observe o).delayPresent = s.delayPresent := rfl
@[simp] theorem State.observe_busAddr (o : Obs) : (s.observe o).busAddr = s.busAddr := rfl
@[simp] theorem State.observe_events (o : Obs) : (s.observe o).events = s.events := rfl
@[simp] theorem State.observe_trace (o : Obs) : (s.observe o).trace = s.trace ++ [o] := rfl

@[simp] theorem State.returnStatus_modeA (st : Status) : (s.returnStatus st).modeA = s.modeA := rfl
@[simp] theorem State.returnStatus_modeB (st : Status) : (s.returnStatus st).modeB = s.modeB := rfl
@[simp] theorem State.returnStatus_pending (st : Status) : (s.returnStatus st).pending = none := rfl
@[simp] theorem State.returnStatus_writePresent (st : Status) : (s.returnStatus st).writePresent = s.writePresent := rfl
@[simp] theorem State.returnStatus_readPresent (st : Status) : (s.returnStatus st).readPresent = s.readPresent := rfl
@[simp] theorem State.returnStatus_delayPresent (st : Status) : (s.returnStatus st).delayPresent = s.delayPresent := rfl
@[simp] theorem State.returnStatus_busAddr (st : Status) : (s.returnStatus st).busAddr = s.busAddr := rfl
@[simp] theorem State.returnStatus_events (st : Status) : (s.returnStatus st).events = s.events := rfl
@[simp] theorem State.returnStatus_trace (st : Status) : (s.returnStatus st).trace = s.trace ++ [.status st] := rfl

@[simp] theorem State.complete_modeA (st : Status) : (s.complete st).modeA = s.modeA := rfl
@[simp] theorem State.complete_modeB (st : Status) : (s.complete st).modeB = s.modeB := rfl
@[simp] theorem State.complete_pending (st : Status) : (s.complete st).pending = none := rfl
@[simp] theorem State.complete_writePresent (st : Status) : (s.complete st).writePresent = s.writePresent := rfl
@[simp] theorem State.complete_readPresent (st : Status) : (s.complete st).readPresent = s.readPresent := rfl
@[simp] theorem State.complete_delayPresent (st : Status) : (s.complete st).delayPresent = s.delayPresent := rfl
@[simp] theorem State.complete_busAddr (st : Status) : (s.complete st).busAddr = s.busAddr := rfl
@[simp] theorem State.complete_events (st : Status) : (s.complete st).events = s.events := rfl
@[simp] theorem State.complete_trace (st : Status) : (s.complete st).trace = s.trace ++ [.status st] := rfl

@[simp] theorem State.memWrite_modeA (a : BusAddr) (n : BitVec 32) (bytes : List Byte) : (s.memWrite a n bytes).modeA = s.modeA := rfl
@[simp] theorem State.memWrite_modeB (a : BusAddr) (n : BitVec 32) (bytes : List Byte) : (s.memWrite a n bytes).modeB = s.modeB := rfl
@[simp] theorem State.memWrite_pending (a : BusAddr) (n : BitVec 32) (bytes : List Byte) : (s.memWrite a n bytes).pending = s.pending := rfl
@[simp] theorem State.memWrite_writePresent (a : BusAddr) (n : BitVec 32) (bytes : List Byte) : (s.memWrite a n bytes).writePresent = s.writePresent := rfl
@[simp] theorem State.memWrite_readPresent (a : BusAddr) (n : BitVec 32) (bytes : List Byte) : (s.memWrite a n bytes).readPresent = s.readPresent := rfl
@[simp] theorem State.memWrite_delayPresent (a : BusAddr) (n : BitVec 32) (bytes : List Byte) : (s.memWrite a n bytes).delayPresent = s.delayPresent := rfl
@[simp] theorem State.memWrite_busAddr (a : BusAddr) (n : BitVec 32) (bytes : List Byte) : (s.memWrite a n bytes).busAddr = s.busAddr := rfl
@[simp] theorem State.memWrite_events (a : BusAddr) (n : BitVec 32) (bytes : List Byte) : (s.memWrite a n bytes).events = s.events := rfl
@[simp] theorem State.memWrite_trace (a : BusAddr) (n : BitVec 32) (bytes : List Byte) : (s.memWrite a n bytes).trace = s.trace ++ [.call (.write a bytes n)] := rfl

@[simp] theorem State.issue_modeA (op : Op) (w : WireCommand) : (s.issue op w).modeA = s.modeA := rfl
@[simp] theorem State.issue_modeB (op : Op) (w : WireCommand) : (s.issue op w).modeB = s.modeB := rfl
@[simp] theorem State.issue_pending (op : Op) (w : WireCommand) : (s.issue op w).pending = some op := rfl
@[simp] theorem State.issue_writePresent (op : Op) (w : WireCommand) : (s.issue op w).writePresent = s.writePresent := rfl
@[simp] theorem State.issue_readPresent (op : Op) (w : WireCommand) : (s.issue op w).readPresent = s.readPresent := rfl
@[simp] theorem State.issue_delayPresent (op : Op) (w : WireCommand) : (s.issue op w).delayPresent = s.delayPresent := rfl
@[simp] theorem State.issue_busAddr (op : Op) (w : WireCommand) : (s.issue op w).busAddr = s.busAddr := rfl
@[simp] theorem State.issue_events (op : Op) (w : WireCommand) : (s.issue op w).events = s.events := rfl
@[simp] theorem State.issue_trace (op : Op) (w : WireCommand) : (s.issue op w).trace = s.trace ++ [.call (.write s.busAddr w.encode Config.cmdLen)] := rfl

@[simp] theorem State.withEvents_modeA (es : List Event) : (s.withEvents es).modeA = s.modeA := rfl
@[simp] theorem State.withEvents_modeB (es : List Event) : (s.withEvents es).modeB = s.modeB := rfl
@[simp] theorem State.withEvents_pending (es : List Event) : (s.withEvents es).pending = s.pending := rfl
@[simp] theorem State.withEvents_writePresent (es : List Event) : (s.withEvents es).writePresent = s.writePresent := rfl
@[simp] theorem State.withEvents_readPresent (es : List Event) : (s.withEvents es).readPresent = s.readPresent := rfl
@[simp] theorem State.withEvents_delayPresent (es : List Event) : (s.withEvents es).delayPresent = s.delayPresent := rfl
@[simp] theorem State.withEvents_busAddr (es : List Event) : (s.withEvents es).busAddr = s.busAddr := rfl
@[simp] theorem State.withEvents_events (es : List Event) : (s.withEvents es).events = es := rfl
@[simp] theorem State.withEvents_trace (es : List Event) : (s.withEvents es).trace = s.trace := rfl

@[simp] theorem State.storeMode_pending (c : BitVec 8) (m : ModeCode) : (s.storeMode c m).pending = s.pending := by
  unfold State.storeMode; split_ifs <;> rfl
@[simp] theorem State.storeMode_writePresent (c : BitVec 8) (m : ModeCode) : (s.storeMode c m).writePresent = s.writePresent := by
  unfold State.storeMode; split_ifs <;> rfl
@[simp] theorem State.storeMode_readPresent (c : BitVec 8) (m : ModeCode) : (s.storeMode c m).readPresent = s.readPresent := by
  unfold State.storeMode; split_ifs <;> rfl
@[simp] theorem State.storeMode_delayPresent (c : BitVec 8) (m : ModeCode) : (s.storeMode c m).delayPresent = s.delayPresent := by
  unfold State.storeMode; split_ifs <;> rfl
@[simp] theorem State.storeMode_busAddr (c : BitVec 8) (m : ModeCode) : (s.storeMode c m).busAddr = s.busAddr := by
  unfold State.storeMode; split_ifs <;> rfl
@[simp] theorem State.storeMode_events (c : BitVec 8) (m : ModeCode) : (s.storeMode c m).events = s.events := by
  unfold State.storeMode; split_ifs <;> rfl
@[simp] theorem State.storeMode_trace (c : BitVec 8) (m : ModeCode) : (s.storeMode c m).trace = s.trace := by
  unfold State.storeMode; split_ifs <;> rfl

/-- The table of R87, first column. -/
theorem State.storeMode_modeA (c : BitVec 8) (m : ModeCode) :
    (s.storeMode c m).modeA = if c = Config.chA ∨ c = Config.chBoth then m else s.modeA := by
  unfold State.storeMode
  split_ifs with hA hB hBoth <;> simp_all [Config.chA, Config.chB, Config.chBoth]

/-- The table of R87, second column. -/
theorem State.storeMode_modeB (c : BitVec 8) (m : ModeCode) :
    (s.storeMode c m).modeB = if c = Config.chB ∨ c = Config.chBoth then m else s.modeB := by
  unfold State.storeMode
  split_ifs with hA hB hBoth <;> simp_all [Config.chA, Config.chB, Config.chBoth]

end Sys2Proof.Machine
end

