-- ==== Sys2Proof/Laws/Ops.lean ====
section
/-! SUPPORT. Once for each shared operation, everything it can do; the inversion lemmas of the meanings and of the step, which later
proofs cite instead of unfolding them. -/

namespace Sys2Proof.Machine

variable {s t : State}

/-- The common checks pass exactly when a handle is present, the write capability is bound and the address is legal. -/
theorem bindingFailure_eq_none_iff (hp : Bool) :
    bindingFailure hp s = none ↔ hp = true ∧ s.writePresent = true ∧ busAddrValid s.busAddr = true := by
  unfold bindingFailure
  split_ifs <;> simp_all

/-- A command passes all its checks exactly when the common ones and its own pass. -/
theorem firstFailure_eq_none_iff (hp : Bool) (f : Option StatusCode) :
    firstFailure hp f s = none ↔
      hp = true ∧ s.writePresent = true ∧ busAddrValid s.busAddr = true ∧ f = none := by
  unfold firstFailure
  cases h : bindingFailure hp s with
  | some c =>
    have hne : ¬(hp = true ∧ s.writePresent = true ∧ busAddrValid s.busAddr = true) := by
      rw [← bindingFailure_eq_none_iff, h]; simp
    simp only [reduceCtorEq, false_iff]
    exact fun ⟨a, b, c, _⟩ => hne ⟨a, b, c⟩
  | none =>
    obtain ⟨a, b, c⟩ := (bindingFailure_eq_none_iff hp).mp h
    simp [a, b, c]

/-- R61, R62: an absent handle or write capability decides, whatever else the request and the handle hold. -/
theorem firstFailure_absent {hp : Bool} (f : Option StatusCode) (h : hp = false ∨ s.writePresent = false) :
    firstFailure hp f s = some .nullReference := by
  rcases h with h | h
  · simp [firstFailure, bindingFailure, h]
  · cases hp <;> simp [firstFailure, bindingFailure, h]

/-- R63: with handle and write capability, an illegal bus address decides. -/
theorem firstFailure_address {hp : Bool} (f : Option StatusCode) (h : hp = true) (w : s.writePresent = true)
    (a : busAddrValid s.busAddr = false) : firstFailure hp f s = some .invalidParameter := by
  simp [firstFailure, bindingFailure, h, w, a]

/-- R64: past the common checks, the operands decide. -/
theorem firstFailure_operands {hp : Bool} (f : Option StatusCode) (h : hp = true) (w : s.writePresent = true)
    (a : busAddrValid s.busAddr = true) : firstFailure hp f s = f := by
  simp [firstFailure, bindingFailure, h, w, a]

/-- With nothing in progress, a returned status is one more observation and nothing else. -/
theorem returnStatus_of_idle (idle : s.pending = none) (st : Status) :
    s.returnStatus st = { s with trace := s.trace ++ [.status st] } := by
  cases s
  simp_all [State.returnStatus, State.observe]

/-- Everything `runCommand` can do when it answers a next state: end early with a status code, or issue the command. -/
theorem runCommand_next {op : Op} {hp : Bool} {f : Option StatusCode} {update : State → State} {build : State → WireCommand}
    (h : runCommand op hp f update build s = .next t) :
    s.pending = none ∧
      ((∃ c, firstFailure hp f s = some c ∧ t = s.returnStatus (statusBits c)) ∨
        (firstFailure hp f s = none ∧ t = (update s).issue op (build (update s)))) := by
  unfold runCommand at h
  split at h
  · cases h
  · refine ⟨Option.not_isSome_iff_eq_none.mp ‹¬_›, ?_⟩
    split at h
    · next c hc => cases h; exact .inl ⟨c, hc, rfl⟩
    · next hc => cases h; exact .inr ⟨hc, rfl⟩

/-- A command is refused only while another is in progress. -/
theorem runCommand_refused {op : Op} {hp : Bool} {f : Option StatusCode} {update : State → State} {build : State → WireCommand}
    {r : Refusal} (h : runCommand op hp f update build s = .refused r) :
    s.pending.isSome = true ∧ r = .requestWhileBusy := by
  unfold runCommand at h
  split at h
  · cases h; exact ⟨‹_›, rfl⟩
  · split at h <;> cases h

/-- A command that passes its checks is issued. -/
theorem runCommand_issues {op : Op} {hp : Bool} {f : Option StatusCode} {update : State → State} {build : State → WireCommand}
    (idle : s.pending = none) (pass : firstFailure hp f s = none) :
    runCommand op hp f update build s = .next ((update s).issue op (build (update s))) := by
  simp [runCommand, idle, pass]

/-- A command that fails a check ends at once. -/
theorem runCommand_fails {op : Op} {hp : Bool} {f : Option StatusCode} {update : State → State} {build : State → WireCommand}
    {c : StatusCode} (idle : s.pending = none) (fail : firstFailure hp f s = some c) :
    runCommand op hp f update build s = .next (s.returnStatus (statusBits c)) := by
  simp [runCommand, idle, fail, raise]

/-- The operand check of a request, whichever operation it is (R64). -/
def operandFailure : Instr → Option StatusCode
  | .writeChannel _ channel _ => writeChannelFailure channel
  | .setOperatingMode _ channel mode => setOperatingModeFailure channel mode
  | .setReferenceMode _ refSel => setReferenceModeFailure refSel

/-- The register update of a request (phase 2), whichever operation it is. -/
def updateOf : Instr → State → State
  | .writeChannel _ _ _ => id
  | .setOperatingMode _ channel mode => State.storeMode channel (modeCode mode)
  | .setReferenceMode _ _ => id

/-- All three meanings in one form: the common sequence of R60. -/
theorem exec_eq_runCommand (i : Instr) :
    exec i s = runCommand i.op i.handlePresent (operandFailure i) (updateOf i) (fun t => i.wire t.modeA t.modeB) s := by
  cases i <;> rfl

/-- The operand check passes exactly on valid operands. -/
theorem operandFailure_eq_none_iff (i : Instr) : operandFailure i = none ↔ i.operandsValid = true := by
  cases i with
  | writeChannel hp c v => simp [operandFailure, writeChannelFailure, Instr.operandsValid]
  | setOperatingMode hp c m =>
    simp only [operandFailure, setOperatingModeFailure, Instr.operandsValid]
    split_ifs <;> simp_all
  | setReferenceMode hp r => simp [operandFailure, setReferenceModeFailure, Instr.operandsValid]

/-- A request passes every check exactly when it is well formed and its handle is populated with a legal address. -/
theorem passes_iff (i : Instr) :
    firstFailure i.handlePresent (operandFailure i) s = none ↔
      i.wellFormed = true ∧ s.writePresent = true ∧ busAddrValid s.busAddr = true := by
  rw [firstFailure_eq_none_iff, operandFailure_eq_none_iff, Instr.wellFormed, Bool.and_eq_true]
  tauto

/-- Everything a request can do when it answers a next state. -/
theorem exec_next {i : Instr} (h : exec i s = .next t) :
    s.pending = none ∧
      ((∃ c, firstFailure i.handlePresent (operandFailure i) s = some c ∧ t = s.returnStatus (statusBits c)) ∨
        (firstFailure i.handlePresent (operandFailure i) s = none ∧
          t = (updateOf i s).issue i.op (i.wire (updateOf i s).modeA (updateOf i s).modeB))) := by
  rw [exec_eq_runCommand] at h
  exact runCommand_next h

/-- No update touches the configuration, the events or the record. -/
@[simp] theorem updateOf_busAddr (i : Instr) : (updateOf i s).busAddr = s.busAddr := by cases i <;> simp [updateOf]
@[simp] theorem updateOf_writePresent (i : Instr) : (updateOf i s).writePresent = s.writePresent := by cases i <;> simp [updateOf]
@[simp] theorem updateOf_readPresent (i : Instr) : (updateOf i s).readPresent = s.readPresent := by cases i <;> simp [updateOf]
@[simp] theorem updateOf_delayPresent (i : Instr) : (updateOf i s).delayPresent = s.delayPresent := by cases i <;> simp [updateOf]
@[simp] theorem updateOf_events (i : Instr) : (updateOf i s).events = s.events := by cases i <;> simp [updateOf]
@[simp] theorem updateOf_trace (i : Instr) : (updateOf i s).trace = s.trace := by cases i <;> simp [updateOf]
@[simp] theorem updateOf_pending (i : Instr) : (updateOf i s).pending = s.pending := by cases i <;> simp [updateOf]

/-- The transport's answer ends a command, and only that. -/
theorem answerCall_next {st : Status} (h : answerCall st s = .next t) :
    s.pending.isSome = true ∧ t = s.returnStatus st := by
  unfold answerCall at h
  split at h
  · cases h; exact ⟨‹_›, rfl⟩
  · cases h

/-- Populating changes the configuration alone, and only between commands. -/
theorem populate_next {wp rp dp : Bool} {a : BusAddr} (h : populate wp rp dp a s = .next t) :
    s.pending = none ∧ t = { s with writePresent := wp, readPresent := rp, delayPresent := dp, busAddr := a } := by
  unfold populate at h
  split at h
  · cases h
  · cases h; exact ⟨Option.not_isSome_iff_eq_none.mp ‹¬_›, rfl⟩

/-- Reading the modes leaves an observation and nothing else. -/
theorem readModes_next (h : readModes s = .next t) : s.pending = none ∧ t = s.observe (.modes s.modeA s.modeB) := by
  unfold readModes at h
  split at h
  · cases h
  · cases h; exact ⟨Option.not_isSome_iff_eq_none.mp ‹¬_›, rfl⟩

/-- Reset gives both registers their reset values and leaves the record of the past standing. -/
theorem create_next {wp rp dp : Bool} {a : BusAddr} (h : create wp rp dp a s = .next t) :
    s.pending = none ∧
      t = { State.reset with
        writePresent := wp, readPresent := rp, delayPresent := dp, busAddr := a
        events := s.events, trace := s.trace ++ [.created] } := by
  unfold create at h
  split at h
  · cases h
  · cases h; exact ⟨Option.not_isSome_iff_eq_none.mp ‹¬_›, rfl⟩

/-- Everything a step can do when it answers a next state: one case for each kind of event. -/
theorem step_next (h : step s = .next t) :
    (s.events = [] ∧ t = s) ∨
    ∃ e rest, s.events = e :: rest ∧
      ((∃ i, e = .request i ∧ exec i (s.withEvents rest) = .next t) ∨
        (∃ st, e = .answer st ∧ s.pending.isSome = true ∧ t = (s.withEvents rest).returnStatus st) ∨
        (∃ wp rp dp a, e = .populate wp rp dp a ∧ s.pending = none ∧
          t = { s with writePresent := wp, readPresent := rp, delayPresent := dp, busAddr := a, events := rest }) ∨
        (e = .readModes ∧ s.pending = none ∧ t = (s.withEvents rest).observe (.modes s.modeA s.modeB)) ∨
        (∃ wp rp dp a, e = .create wp rp dp a ∧ s.pending = none ∧
          t = { State.reset with
            writePresent := wp, readPresent := rp, delayPresent := dp, busAddr := a
            events := rest, trace := s.trace ++ [.created] })) := by
  unfold step at h
  split at h
  · next hs => cases h; exact .inl ⟨hs, rfl⟩
  all_goals refine .inr ⟨_, _, ‹_›, ?_⟩
  · exact .inl ⟨_, rfl, h⟩
  · cases h
  · obtain ⟨hp, rfl⟩ := answerCall_next h
    exact .inr (.inl ⟨_, rfl, hp, rfl⟩)
  · obtain ⟨hp, rfl⟩ := populate_next h
    exact .inr (.inr (.inl ⟨_, _, _, _, rfl, hp, rfl⟩))
  · obtain ⟨hp, rfl⟩ := readModes_next h
    exact .inr (.inr (.inr (.inl ⟨rfl, hp, rfl⟩)))
  · cases h
  · obtain ⟨hp, rfl⟩ := create_next h
    exact .inr (.inr (.inr (.inr ⟨_, _, _, _, rfl, hp, rfl⟩)))
  · cases h

end Sys2Proof.Machine
end

