-- ==== Sys2Proof/Laws/PerInstr.lean ====
section
/-! SUPPORT. The statements made of every request as syntax, one lemma for each constructor. -/

namespace Sys2Proof.Laws

/-- The word of a request, built from any mode registers, has the fixed bits of the request's own row of spec/opcode_table.json
(R57), and exactly three bytes (R40). -/
def MatchesRow.Statement (i : Instr) : Prop :=
  ∀ a b : ModeCode, ∃ w, wordOfBytes (encode a b i) = some w ∧ w &&& (tableRow i.op).mask = (tableRow i.op).fixedBits

/-- Three bytes side by side, masked. -/
theorem and_three_bytes (x y z m n p : Byte) : (x ++ y ++ z) &&& (m ++ n ++ p) = (x &&& m) ++ (y &&& n) ++ (z &&& p) := by
  rw [BitVec.and_append, BitVec.and_append]

theorem MatchesRow.writeChannel (hp : Bool) (c : BitVec 8) (v : BitVec 16) : MatchesRow.Statement (.writeChannel hp c v) := by
  intro a b
  refine ⟨_, rfl, ?_⟩
  have hc : ∀ n : BitVec 4, commandByte Config.cmdWriteDac n &&& 0xF0#8 = 0x30#8 := by decide
  have hl : ∀ n : BitVec 4, fieldAt 0 n &&& 0xF0#8 = 0#8 := by decide
  have hmask : (tableRow (Instr.writeChannel hp c v).op).mask = (0xF0#8 ++ 0x00#8 ++ 0xF0#8) := rfl
  rw [hmask]
  rw [and_three_bytes, hc, hl]
  simp [tableRow, Instr.op]

theorem MatchesRow.setOperatingMode (hp : Bool) (c m : BitVec 8) : MatchesRow.Statement (.setOperatingMode hp c m) := by
  intro a b
  refine ⟨_, rfl, ?_⟩
  revert a b
  show ∀ a b : ModeCode, _ &&& 0xFFFF3C#24 = 0x400000#24
  decide

theorem MatchesRow.setReferenceMode (hp : Bool) (r : BitVec 8) : MatchesRow.Statement (.setReferenceMode hp r) := by
  intro a b
  refine ⟨_, rfl, ?_⟩
  show _ &&& 0xFFFFFE#24 = 0x700000#24
  generalize r.extractLsb' 0 1 = x
  revert x
  decide

end Sys2Proof.Laws
end

