-- ==== Sys2Proof/Tests/Slice0.lean ====
section
/-! SUPPORT. The model's own tests: expected values come from spec/95_test_vectors.md (the vector's name stands in each docstring) or
are written out from the encodings of spec/30_encoding.md. After them, for each statement with hypotheses, states and operands that
meet the hypotheses together. -/

namespace Sys2Proof.Tests

open Sys2Proof.Machine

/-- An idle encoder with a populated handle, the start state of most vectors, with the given modes. -/
def populated (modeA modeB : ModeCode) : State :=
  { State.reset with modeA := modeA, modeB := modeB, writePresent := true, busAddr := 0x0C }

/-- The same, about to see these events. -/
def facing (events : List Event) : State := { populated 1 2 with events := events }

/-- An encoder that waits for the transport, about to see these events. -/
def waiting (events : List Event) : State := { facing events with pending := some .setOperatingMode }

/-- The same encoder at the largest legal address. -/
def atTopAddress : State := { populated 1 2 with busAddr := 0x7F }

/-- The same encoder at the smallest illegal address. -/
def atIllegalAddress : State := { populated 1 2 with busAddr := 0x80 }

/- ## Well-formedness: each check refuses something -/

theorem test_wf_accepts : (Instr.writeChannel true 0x09 0xFFFF).wellFormed = true ∧
    (Instr.setOperatingMode true 0x01 3).wellFormed = true ∧ (Instr.setReferenceMode true 1).wellFormed = true := by decide
theorem test_wf_no_handle : (Instr.writeChannel false 0x01 0).wellFormed = false ∧
    (Instr.setOperatingMode false 0x01 0).wellFormed = false ∧ (Instr.setReferenceMode false 0).wellFormed = false := by decide
/-- R46: `0x02` and `0x19` are invalid; the comparison is on the full width. -/
theorem test_wf_channel : (Instr.writeChannel true 0x02 0).wellFormed = false ∧
    (Instr.writeChannel true 0x19 0).wellFormed = false ∧ (Instr.setOperatingMode true 0x00 0).wellFormed = false := by decide
theorem test_wf_mode : (Instr.setOperatingMode true 0x01 4).wellFormed = false := by decide
theorem test_wf_ref : (Instr.setReferenceMode true 2).wellFormed = false := by decide
/-- Section 2.5, `0x32AB0C`: never produced, so it decodes to no producible command and to no well-formed request. -/
theorem test_wf_word_never_produced : decode [0x32, 0xAB, 0x0C] = .ok (.writeDac 0x2 0xABC) ∧
    (WireCommand.writeDac 0x2 0xABC).producible = false ∧
    (WireCommand.writeDac 0x2 0xABC).request.wellFormed = false := by decide

/- ## Decoding: words written out from R43, R44, R45 -/

/-- R43: `0011 cccc dddddddd 0000 llll` with c = 1000 (B), d = 10101011, l = 1100. -/
theorem test_decode_write_channel :
    decodeTableWord 24 0b001110001010101100001100 = some (.writeChannel true 0x08 0x0ABC) := by decide
/-- R44: `0100 0000 00000000 aa 0000 bb` with aa = bb = 10. -/
theorem test_decode_set_operating_mode :
    decodeTableWord 24 0b010000000000000010000010 = some (.setOperatingMode true 0x09 2) := by decide
/-- R44 with aa = 01, bb = 10 (section 2.5, `0x400042`): both fields are read. -/
theorem test_decode_power_fields : decode [0b01000000, 0b00000000, 0b01000010] = .ok (.powerDac 1 2) := by decide
/-- R45: `0111 0000 00000000 0000000 r` with r = 1. -/
theorem test_decode_set_reference_mode :
    decodeTableWord 24 0b011100000000000000000001 = some (.setReferenceMode true 1) := by decide
/-- Section 2.5: words that are never produced. -/
theorem test_decode_refuses : decodeTableWord 24 0x31AB1C = none ∧ decodeTableWord 24 0x410000 = none ∧
    decodeTableWord 24 0x400010 = none ∧ decodeTableWord 24 0x700002 = none ∧ decodeTableWord 24 0x10AB0C = none ∧
    decodeTableWord 24 0 = none ∧ decodeTableWord 32 0x1700000 = none := by decide
/-- R50: the reserved byte of formats P and F. -/
theorem test_decode_reserved_byte : decode [0x40, 0x01, 0x00] = .error (.reservedByteSet 0x01) ∧
    decode [0x70, 0x80, 0x00] = .error (.reservedByteSet 0x80) ∧ decode [0x70, 0x00] = .error (.wrongLength 2) := by decide
theorem test_rows_do_not_overlap : ∀ a b : Op, a ≠ b →
    (tableRow a).fixedBits &&& (tableRow a).mask &&& (tableRow b).mask ≠
      (tableRow b).fixedBits &&& (tableRow b).mask &&& (tableRow a).mask := by
  intro a b; cases a <;> cases b <;> decide

/- ## One step of each operation -/

/-- W25: `WRITE_CHANNEL A, 0x0123` at `0x7F` sends `31 12 03`. -/
theorem test_write_channel_sends : exec (.writeChannel true 0x01 0x0123) atTopAddress = .next
    { atTopAddress with pending := some .writeChannel, trace := [.call (.write 0x7F [0x31, 0x12, 0x03] 3)] } := rfl
/-- W33: `NullReference` comes before `InvalidParameter`. -/
theorem test_write_channel_null_first : exec (.writeChannel true 0xFF 0x0123) { State.reset with busAddr := 0xFF } = .next
    { State.reset with busAddr := 0xFF, trace := [.status 0xFB] } := rfl
/-- M13: from modes 1, 2, `SET_OPERATING_MODE B, TRI_STATE` stores 3 in B alone and sends `40 00 43`. -/
theorem test_set_operating_mode_combines : exec (.setOperatingMode true 0x08 3) (populated 1 2) = .next
    { populated 1 3 with
      pending := some .setOperatingMode, trace := [.call (.write 0x0C [0x40, 0x00, 0x43] 3)] } := rfl
/-- M19: a valid mode with an invalid channel stores nothing. -/
theorem test_set_operating_mode_bad_channel : exec (.setOperatingMode true 0x02 3) (populated 1 2) = .next
    { populated 1 2 with trace := [.status 0xFC] } := rfl
/-- F2: `SET_REFERENCE_MODE REF_OFF` sends `70 00 01`. -/
theorem test_set_reference_mode_off : exec (.setReferenceMode true 1) (populated 1 2) = .next
    { populated 1 2 with
      pending := some .setReferenceMode, trace := [.call (.write 0x0C [0x70, 0x00, 0x01] 3)] } := rfl
/-- F4: 3 is rejected, not reduced to its low bit. -/
theorem test_set_reference_mode_range : exec (.setReferenceMode true 3) (populated 1 2) = .next
    { populated 1 2 with trace := [.status 0xFC] } := rfl
/-- T3: an answer outside the enumeration is returned unchanged. -/
theorem test_answer_passes_through : step (waiting [.answer 0x55]) = .next
    { facing [] with trace := [.status 0x55] } := rfl
/-- P5: with a silent transport the command stays in progress. -/
theorem test_silence_hangs : step (waiting []) = .next (waiting []) := rfl
/-- R134: a request during a command. -/
theorem test_busy_refuses : step (waiting [.request (.setReferenceMode true 0)]) = .refused .requestWhileBusy := rfl
/-- R54: the text of V2's command, with the document's own name for both channels. -/
theorem test_text : readInstr [.word "SET_OPERATING_MODE", .word "A_and_B", .word "TRI_STATE"] =
    some (.setOperatingMode true 0x09 3) := by decide

/- ## States and operands that meet the hypotheses of each statement -/

theorem witness_ResetClearsModesAndSendsNothing :
    (facing [.create false true true 0xFF]).pending = none ∧ (waiting [.create true false false 0]).pending ≠ none := by decide
theorem witness_ConfigurationChangesOnlyBetweenCommands :
    (facing [.populate true true true 0x7F]).pending = none ∧ (waiting [.populate false true true 0x80]).pending ≠ none := by decide
theorem witness_HostReadsModesWithoutSideEffect :
    (facing [.readModes]).pending = none ∧ (waiting [.readModes]).pending ≠ none := by decide
theorem witness_StepRunsPresentedRequest :
    (facing [.request (.setReferenceMode true 0)]).events = .request (.setReferenceMode true 0) :: [] := by decide
theorem witness_StepRunsDecodedWord : decodeTableWord 24 0x31AB0C = some (.writeChannel true 0x01 0x0ABC) := by decide
theorem witness_DecodedBytesReencode : decode [0x31, 0xAB, 0x0C] = .ok (.writeDac 0x1 0xABC) ∧
    decode [0x40, 0x00, 0xC3] = .ok (.powerDac 3 3) ∧ decode [0x70, 0x00, 0x01] = .ok (.refSetup 1) := by decide
/-- The selector of each clause. -/
theorem witness_FormatWLayout : (Instr.writeChannel true 0x01 0).wellFormed = true ∧
    (Instr.writeChannel true 0x08 0xFFFF).wellFormed = true ∧ (Instr.writeChannel true 0x09 0x1000).wellFormed = true := by decide
theorem witness_RequestReadsBackButForLostBits : (Instr.writeChannel true 0x09 0xFFFF).wellFormed = true ∧
    (Instr.setOperatingMode true 0x08 3).wellFormed = true ∧ (Instr.setReferenceMode true 1).wellFormed = true := by decide
/-- One command for each way the other register can already hold its field, and one of each other format. -/
theorem witness_ReadRequestSendsItsWireCommand : (populated 1 2).Ready ∧ (populated 0 0).Ready ∧
    (WireCommand.powerDac 3 3).producible = true ∧
    ((0 : ModeCode) = 0 ∧ (populated 0 0).modeA = 0) ∧ ((1 : ModeCode) ≠ 0 ∧ (populated 1 2).modeB = 2) ∧
    (WireCommand.writeDac 0x9 0xFFF).producible = true ∧ (WireCommand.refSetup 1).producible = true := by decide
theorem witness_TextReadsBack : (Instr.writeChannel true 0x02 0xFFFF).handlePresent = true := by decide
/-- Both clauses: an idle state; and an issued command about to be answered. -/
theorem witness_WriteChannelFollowsItsPseudocode : (facing [.answer 0]).pending = none ∧
    ∃ t, exec (.writeChannel true 0x01 0) (facing [.answer 0]) = .next t ∧ t.pending ≠ none ∧ t.events = .answer 0 :: [] :=
  ⟨rfl, _, rfl, by decide, rfl⟩
theorem witness_SetOperatingModeFollowsItsPseudocode : (facing [.answer 0]).pending = none ∧
    ∃ t, exec (.setOperatingMode true 0x09 3) (facing [.answer 0]) = .next t ∧ t.pending ≠ none ∧ t.events = .answer 0 :: [] :=
  ⟨rfl, _, rfl, by decide, rfl⟩
theorem witness_SetReferenceModeFollowsItsPseudocode : (facing [.answer 0]).pending = none ∧
    ∃ t, exec (.setReferenceMode true 1) (facing [.answer 0]) = .next t ∧ t.pending ≠ none ∧ t.events = .answer 0 :: [] :=
  ⟨rfl, _, rfl, by decide, rfl⟩
theorem witness_WriteChannelCompletes : (facing [.request (.writeChannel true 0x09 0xFFFF), .answer 0xFE]).Ready ∧
    atTopAddress.Ready ∧ ((0x09 : BitVec 8) = 0x01 ∨ (0x09 : BitVec 8) = 0x08 ∨ (0x09 : BitVec 8) = 0x09) := by decide
theorem witness_SetOperatingModeCompletes : (facing [.request (.setOperatingMode true 0x08 3), .answer 0xFD]).Ready ∧
    (3 : BitVec 8) ≤ 3 ∧ ((0x08 : BitVec 8) = 0x01 ∨ (0x08 : BitVec 8) = 0x08 ∨ (0x08 : BitVec 8) = 0x09) ∧
    (1 : ModeCode) = (if (0x08 : BitVec 8) = 0x08 then (populated 1 2).modeA else (3 : BitVec 8).extractLsb' 0 2) ∧
    (3 : ModeCode) = (if (0x08 : BitVec 8) = 0x01 then (populated 1 2).modeB else (3 : BitVec 8).extractLsb' 0 2) := by decide
theorem witness_SetReferenceModeCompletes : (facing [.request (.setReferenceMode true 1), .answer 0]).Ready ∧
    (1 : BitVec 8) ≤ 1 ∧ (0 : BitVec 8) ≤ 1 := by decide
theorem witness_EveryValueIsSentByShiftAndMask : atTopAddress.Ready ∧
    ((0x01 : BitVec 8) = 0x01 ∨ (0x01 : BitVec 8) = 0x08 ∨ (0x01 : BitVec 8) = 0x09) := by decide
theorem witness_TopValueBitsNeverMatter : (0xF00F : BitVec 16).extractLsb' 0 12 = (0x000F : BitVec 16).extractLsb' 0 12 := by decide
/-- Each clause: a passing command of each channel and of none; then a mode just above the greatest. -/
theorem witness_ModeUpdateByChannel : (populated 1 2).pending = none ∧
    ((populated 1 2).writePresent = true ∧ (populated 1 2).busAddr ≤ 0x7F ∧ (3 : BitVec 8) ≤ 3) ∧
    ((0x02 : BitVec 8) ≠ 0x01 ∧ (0x02 : BitVec 8) ≠ 0x08 ∧ (0x02 : BitVec 8) ≠ 0x09) ∧ ¬(4 : BitVec 8) ≤ 3 := by decide
theorem witness_PowerByteCarriesBothModes : (populated 1 2).Ready ∧ (3 : BitVec 8) ≤ 3 ∧
    ((0x08 : BitVec 8) = 0x01 ∨ (0x08 : BitVec 8) = 0x08 ∨ (0x08 : BitVec 8) = 0x09) := by decide
/-- Both futures: a failing answer and a mode command after it, and silence. -/
theorem witness_FailedTransmitKeepsNewModes :
    (∃ t, exec (.setOperatingMode true 0x09 0) (facing [.answer 0xFF]) = .next t ∧ t.pending ≠ none ∧ t.events = .answer 0xFF :: []) ∧
    (3 : BitVec 8) ≤ 3 ∧
    (∃ t u, exec (.setOperatingMode true 0x01 3) (facing []) = .next t ∧ t.pending ≠ none ∧ t.events = [] ∧
      Sys2Proof.core.run 3 t = .next u) :=
  ⟨⟨_, rfl, by decide, rfl⟩, by decide, ⟨_, _, rfl, by decide, rfl, rfl⟩⟩
theorem witness_FirstModeCommandSendsZeroForOtherChannel : (populated 0 0).Ready ∧
    (populated 0 0).modeA = State.reset.modeA ∧ (populated 0 0).modeB = State.reset.modeB ∧ (3 : BitVec 8) ≤ 3 := by decide
theorem witness_RepeatedCommandIsSentAgain : ∃ t u,
    exec (.setOperatingMode true 0x01 3) (populated 1 2) = .next t ∧
    t.trace = (populated 1 2).trace ++ [.call (.write 0x0C [0x40, 0x00, 0xC2] 3)] ∧ answerCall 0xFD t = .next u :=
  ⟨_, _, rfl, rfl, rfl⟩
theorem witness_AbsenceGivesNullReference : State.reset.pending = none ∧ State.reset.writePresent = false ∧
    (populated 1 2).pending = none ∧ (Instr.setReferenceMode false 0xFF).handlePresent = false := by decide
theorem witness_IllegalAddressGivesInvalidParameter : atIllegalAddress.pending = none ∧
    (Instr.setOperatingMode true 0x01 3).handlePresent = true ∧ atIllegalAddress.writePresent = true ∧
    atIllegalAddress.busAddr > 0x7F := by decide
theorem witness_NullReferenceCauses : State.reset.pending = none ∧ (populated 1 2).pending = none := by decide
theorem witness_InvalidParameterCauses : atIllegalAddress.pending = none ∧ atTopAddress.pending = none := by decide
/-- One command that fails by its address, and one by its operand. -/
theorem witness_FailedCheckChangesNothing : atIllegalAddress.pending = none ∧
    ¬((Instr.setReferenceMode true 1).wellFormed = true ∧ atIllegalAddress.writePresent = true ∧ atIllegalAddress.busAddr ≤ 0x7F) ∧
    ¬((Instr.setReferenceMode true 2).wellFormed = true ∧ atTopAddress.writePresent = true ∧ atTopAddress.busAddr ≤ 0x7F) := by decide
/-- One command that is issued and about to be answered, and one that fails. -/
theorem witness_OneWriteOfThreeBytesPerCommand :
    (∃ t, exec (.writeChannel true 0x08 0x5A5A) (facing [.answer 0xFE]) = .next t ∧ t.events = .answer 0xFE :: []) ∧
    ∃ t, exec (.writeChannel true 0x89 0x5A5A) atTopAddress = .next t := ⟨⟨_, rfl, rfl⟩, ⟨_, rfl⟩⟩
theorem witness_AnswerIsReturnedUnchanged : (waiting [.answer 0x80]).events = .answer 0x80 :: [] ∧
    (waiting [.answer 0x80]).pending ≠ none := by decide
/-- Both origins of a status. -/
theorem witness_EveryStatusIsAnswerOrOwnCode :
    (∃ t, step (waiting [.answer 0x55]) = .next t ∧ t.trace = (waiting [.answer 0x55]).trace ++ [.status 0x55]) ∧
    (∃ t, step (facing [.request (.setReferenceMode true 2)]) = .next t ∧
      t.trace = (facing [.request (.setReferenceMode true 2)]).trace ++ [.status 0xFC]) := ⟨⟨_, rfl, rfl⟩, ⟨_, rfl, rfl⟩⟩
/-- One next state of each operation. -/
theorem witness_CommandsLeaveTheRestUnchanged : (∃ t, exec (.writeChannel true 0x01 0x0FFF) (populated 1 2) = .next t) ∧
    (∃ t, exec (.setOperatingMode true 0x09 3) (populated 1 2) = .next t) ∧
    (∃ t, exec (.setReferenceMode true 0) (populated 1 2) = .next t) ∧
    (0x0D : BusAddr) ≠ (populated 1 2).busAddr ∧ (Instr.setReferenceMode true 0).op ≠ .setOperatingMode :=
  ⟨⟨_, rfl⟩, ⟨_, rfl⟩, ⟨_, rfl⟩, by decide, by decide⟩
/-- A change by a command, a change by a reset, and a forbidden write. -/
theorem witness_OnlyModeCommandAndResetChangeModes :
    (∃ t, step (facing [.request (.setOperatingMode true 0x01 3)]) = .next t ∧ t.modeA ≠ (populated 1 2).modeA) ∧
    (∃ t, step (facing [.create true true true 0x0C]) = .next t ∧ t.modeB ≠ (populated 1 2).modeB) ∧
    (facing [.writeModes 3 3]).events = .writeModes 3 3 :: [] :=
  ⟨⟨_, rfl, by decide⟩, ⟨_, rfl, by decide⟩, rfl⟩
/-- Both clauses: a next state, and a refusal. -/
theorem witness_OtherCommandsIgnoreModes : (Instr.writeChannel true 0x01 0).op ≠ .setOperatingMode ∧
    (∃ t, exec (.writeChannel true 0x01 0) (populated 1 2) = .next t) ∧
    exec (.writeChannel true 0x01 0) (waiting []) = .refused .requestWhileBusy := ⟨by decide, ⟨_, rfl⟩, rfl⟩
theorem witness_ReadAndDelayAreNeverUsed : (∃ t, exec (.setReferenceMode true 0) (populated 1 2) = .next t) ∧
    exec (.setReferenceMode true 0) (waiting []) = .refused .requestWhileBusy ∧
    ∃ t, step { facing [.answer 0] with
      pending := some .writeChannel
      trace := [.call (.read 0x0C 1), .call (.delayMicroseconds 5)] } = .next t ∧
      TransportCall.read 0x0C 1 ∈ callsOf t.trace ∧ TransportCall.delayMicroseconds 5 ∈ callsOf t.trace :=
  ⟨⟨_, rfl⟩, rfl, _, rfl, by decide, by decide⟩
theorem witness_RequestWhileBusyIsRefused : (waiting []).pending ≠ none ∧
    (facing [.requestsTogether (.setReferenceMode true 0) (.writeChannel true 0x01 0) []]).events =
      .requestsTogether (.setReferenceMode true 0) (.writeChannel true 0x01 0) [] :: [] := by decide
theorem witness_SilentTransportHangsForEver : (waiting []).pending ≠ none ∧ (waiting []).events = [] := by decide
/-- A permitted state and one that is not. -/
theorem witness_OnlyForbiddenEventsAreRefused : (facing [.readModes]).Permitted ∧ ¬(facing [.answer 0]).Permitted :=
  ⟨fun e h => by cases h; rfl, fun h => absurd (h _ rfl) (by decide)⟩
/-- A run whose rules are kept for ever: nothing happens any more. -/
theorem witness_KeptRulesRunForEver : ∀ k t, Sys2Proof.core.run k (facing []) = .next t → t.Permitted := by
  intro k
  induction k with
  | zero => intro t h; cases h; intro e he; cases he
  | succ k ih => exact fun t h => ih t h
/-- A record that is in order, in a busy state, about to be answered. -/
theorem witness_StepKeepsTraceOrdered : ∃ s t : State, s.TraceOrdered ∧ s.pending ≠ none ∧ step s = .next t :=
  ⟨{ waiting [.answer 0] with trace := [.status 0xFC, .call (.write 0x0C [0x40, 0x00, 0x42] 3)] }, _, rfl, by decide, rfl⟩
/-- Registers and record that agree, about to change together. -/
theorem witness_StepKeepsModesAsSent : ∃ s t : State, s.ModesAsSent ∧ step s = .next t ∧ t.modeB ≠ s.modeB :=
  ⟨{ facing [.request (.setOperatingMode true 0x08 3)] with
      trace := [.call (.write 0x0C [0x40, 0x00, 0x42] 3), .status 0xFD] }, _, rfl, rfl, by decide⟩
/-- A legal record, about to grow by a call. -/
theorem witness_StepKeepsCallsLegal : ∃ s t : State, s.CallsLegal ∧ step s = .next t ∧ t.pending ≠ none :=
  ⟨{ facing [.request (.writeChannel true 0x09 0xF00F)] with trace := [.call (.write 0x7F [0x70, 0x00, 0x01] 3), .status 0] }, _,
    by
      intro o ho
      simp only [List.mem_cons, List.not_mem_nil, or_false] at ho
      rcases ho with rfl | rfl
      · exact ⟨by decide, rfl, .refSetup 1, by decide, by decide⟩
      · trivial,
    rfl, by decide⟩
/-- A list of calls in which one is answered, one fails its checks and one is answered with a failure. -/
theorem witness_MachineRefinesBlockingCalls :
    (facing (callSchedule (populated 1 2).handle
      [(.setOperatingMode true 0x01 3, 0xFD), (.writeChannel true 0x02 0, 0), (.setReferenceMode true 1, 0)])).pending = none ∧
    callSchedule (populated 1 2).handle
      [(.setOperatingMode true 0x01 3, 0xFD), (.writeChannel true 0x02 0, 0), (.setReferenceMode true 1, 0)] =
      [.request (.setOperatingMode true 0x01 3), .answer 0xFD, .request (.writeChannel true 0x02 0),
        .request (.setReferenceMode true 1), .answer 0] := by decide

end Sys2Proof.Tests
end

