-- ==== Sys2Proof/Proofs/FormatW.lean ====
section
/-! PROOFS. Format W bit by bit (spec/30_encoding.md R43), and the shift-and-mask form of its two value bytes (R49). -/

namespace Sys2Proof

/- ## Format W as nibbles -/

/-- The last byte of format W: a reserved nibble of zeros above the low nibble of the value (R43). -/
theorem lowNibble_eq_append : ∀ n : BitVec 4, fieldAt 0 n = 0#4 ++ n := by decide

/-- The wire command of format W, every byte as its fields side by side (R43). -/
theorem encode_writeDac (channel : BitVec 4) (value : BitVec 12) :
    (WireCommand.writeDac channel value).encode =
      [0x3#4 ++ channel, value.extractLsb' 4 8, 0x0#4 ++ value.extractLsb' 0 4] := by
  simp only [WireCommand.encode, commandByte_eq_append, lowNibble_eq_append, Config.cmdWriteDac,
    BitVec.ofNat_eq_ofNat]

/-- The bytes of `WRITE_CHANNEL`: cutting the value to its 12 wire bits first loses none of the bits that are sent. -/
theorem encode_writeChannel (a b : ModeCode) (hp : Bool) (channel : BitVec 8) (value : BitVec 16) :
    encode a b (.writeChannel hp channel value) =
      [0x3#4 ++ channel.extractLsb' 0 4, value.extractLsb' 4 8, 0x0#4 ++ value.extractLsb' 0 4] := by
  have high : (value.extractLsb' 0 12).extractLsb' 4 8 = value.extractLsb' 4 8 :=
    BitVec.extractLsb'_extractLsb'_of_le (by decide)
  have low : (value.extractLsb' 0 12).extractLsb' 0 4 = value.extractLsb' 0 4 :=
    BitVec.extractLsb'_extractLsb'_of_le (by decide)
  rw [encode, Instr.wire, wireOfWrite, encode_writeDac, high, low]

/-- Settles O10: the layout is `encode_writeChannel`, and its first byte is computed for each of the three selectors. -/
theorem formatWLayout : Obligations.FormatWLayout := by
  intro a b hp channel value
  rw [encode_writeChannel]
  refine ⟨rfl, ?_, ?_, ?_⟩
  all_goals
    rintro rfl
    rfl

/- ## The value bytes by shift and mask -/

/-- `B1` in the form of R49. -/
theorem valueHigh_eq_shift_mask (value : BitVec 16) :
    value.extractLsb' 4 8 = ((value >>> 4) &&& 0xFF).setWidth 8 := by
  have mask : (0xFF : BitVec 16).setWidth 8 = BitVec.allOnes 8 := rfl
  rw [BitVec.setWidth_and, mask, BitVec.and_allOnes, BitVec.setWidth_ushiftRight_eq_extractLsb]

/-- A byte under the mask `0x0F` keeps its low nibble below four zeros. -/
theorem and_lowMask_eq_append : ∀ b : Byte, b &&& 0x0F = 0x0#4 ++ b.extractLsb' 0 4 := by decide

/-- `B2` in the form of R49. -/
theorem valueLow_eq_mask (value : BitVec 16) :
    0x0#4 ++ value.extractLsb' 0 4 = (value &&& 0x0F).setWidth 8 := by
  have mask : (0x0F : BitVec 16).setWidth 8 = (0x0F : Byte) := rfl
  rw [BitVec.setWidth_and, mask, and_lowMask_eq_append, BitVec.extractLsb'_setWidth_of_le (by decide)]

end Sys2Proof

namespace Sys2Proof.Machine

/- ## A well-formed request in a ready state -/

/-- A well-formed request in a ready state is issued (R60, R67): after its register update it puts exactly its own three bytes on
the bus, built from the updated registers (R66). -/
theorem exec_sends_encode {s : State} {i : Instr} (ready : s.Ready) (wf : i.wellFormed = true) :
    ∃ t, exec i s = .next t ∧
      t.trace = s.trace ++ [.call (.write s.busAddr (encode t.modeA t.modeB i) 3)] := by
  obtain ⟨idle, writePresent, address⟩ := ready
  have pass : firstFailure i.handlePresent (operandFailure i) s = none :=
    (passes_iff i).mpr ⟨wf, writePresent, (busAddrValid_iff _).mpr address⟩
  refine ⟨_, (exec_eq_runCommand i).trans (runCommand_issues idle pass), ?_⟩
  rw [State.issue_trace, updateOf_trace, updateOf_busAddr, State.issue_modeA, State.issue_modeB]
  rfl

/-- `WRITE_CHANNEL` with a handle is well formed exactly on a valid selector: the value is never checked (R46, R49). -/
theorem writeChannel_wellFormed_iff (channel : BitVec 8) (value : BitVec 16) :
    (Instr.writeChannel true channel value).wellFormed = true ↔ channel = 0x01 ∨ channel = 0x08 ∨ channel = 0x09 :=
  channelValid_iff channel

/-- Settles O23: the request is well formed whatever its value, so its bytes are sent, and the last two have the form of R49. -/
theorem everyValueIsSentByShiftAndMask : Obligations.EveryValueIsSentByShiftAndMask := by
  intro s channel value ready valid
  obtain ⟨t, issued, sent⟩ := exec_sends_encode ready ((writeChannel_wellFormed_iff channel value).mpr valid)
  rw [encode_writeChannel] at sent
  exact ⟨t, _, issued, sent, valueHigh_eq_shift_mask value, valueLow_eq_mask value⟩

end Sys2Proof.Machine
end

