-- ==== Sys2Proof/Proofs/CommonSequence.lean ====
section
/-! PROOFS. The sequence common to all operations (spec/40_common_sequence.md R60): how a failed check ends a command, and the one
transport write and the returned answer of a command that passes. -/

namespace Sys2Proof.Machine

variable {s : State}

/- ## The checks -/

/-- R61 to R63: the codes of the common checks. -/
theorem bindingFailure_eq_some {hp : Bool} {c : StatusCode} (h : bindingFailure hp s = some c) :
    c = .nullReference ∨ c = .invalidParameter := by
  unfold bindingFailure at h
  split_ifs at h
  · exact .inl (Option.some.inj h).symm
  · exact .inl (Option.some.inj h).symm
  · exact .inr (Option.some.inj h).symm

/-- R64: an operand check fails with one code only. -/
theorem operandFailure_eq_some {i : Instr} {c : StatusCode} (h : operandFailure i = some c) : c = .invalidParameter := by
  cases i with
  | writeChannel hp channel value =>
    simp only [operandFailure, writeChannelFailure] at h
    split_ifs at h
    exact (Option.some.inj h).symm
  | setOperatingMode hp channel mode =>
    simp only [operandFailure, setOperatingModeFailure] at h
    split_ifs at h <;> exact (Option.some.inj h).symm
  | setReferenceMode hp refSel =>
    simp only [operandFailure, setReferenceModeFailure] at h
    split_ifs at h
    exact (Option.some.inj h).symm

/-- The first check of a request that fails gives one of the encoder's own two codes (R61 to R64). -/
theorem firstFailure_eq_some {i : Instr} {c : StatusCode} (h : firstFailure i.handlePresent (operandFailure i) s = some c) :
    c = .nullReference ∨ c = .invalidParameter := by
  unfold firstFailure at h
  split at h
  · next c' hc =>
    cases h
    exact bindingFailure_eq_some hc
  · exact .inr (operandFailure_eq_some h)

/-- A request passes every check exactly when it is well formed, with a write capability and an address of at most `ADDR_MAX`. -/
theorem firstFailure_eq_none_iff_passes (i : Instr) :
    firstFailure i.handlePresent (operandFailure i) s = none ↔
      i.wellFormed = true ∧ s.writePresent = true ∧ s.busAddr ≤ 0x7F := by
  rw [passes_iff, busAddrValid_iff]

/- ## A command that fails a check -/

/-- R65: with nothing in progress, a failed check leaves the returned status as one more observation and nothing else. -/
theorem exec_of_firstFailure {i : Instr} {c : StatusCode} (idle : s.pending = none)
    (fail : firstFailure i.handlePresent (operandFailure i) s = some c) :
    exec i s = .next { s with trace := s.trace ++ [.status (statusBits c)] } := by
  rw [exec_eq_runCommand, runCommand_fails idle fail, returnStatus_of_idle idle]

/-- Settles O31: an absence decides the checks before anything else is looked at. -/
theorem absenceGivesNullReference : Obligations.AbsenceGivesNullReference := by
  intro s i idle absent
  rw [exec_of_firstFailure idle (firstFailure_absent _ absent), statusBits_nullReference]

/-- Settles O35: some check is the first to fail, and it gives one of two codes. -/
theorem failedCheckChangesNothing : Obligations.FailedCheckChangesNothing := by
  intro s i idle notPassed
  rw [← firstFailure_eq_none_iff_passes] at notPassed
  obtain ⟨c, fail⟩ := Option.ne_none_iff_exists'.mp notPassed
  refine ⟨statusBits c, ?_, exec_of_firstFailure idle fail⟩
  obtain rfl | rfl := firstFailure_eq_some fail
  · exact .inl statusBits_nullReference
  · exact .inr statusBits_invalidParameter

/- ## A command that reaches the transport -/

/-- R40: a request of any operation is three bytes on the bus. -/
theorem encode_eq_three_bytes (modeA modeB : ModeCode) (i : Instr) : ∃ b0 b1 b2, encode modeA modeB i = [b0, b1, b2] := by
  cases i <;> exact ⟨_, _, _, rfl⟩

/-- R68: an answer to the command in progress is returned as its status, and the event is used up. -/
theorem step_answer {st : Status} {rest : List Event} (answered : s.events = .answer st :: rest) (busy : s.pending ≠ none) :
    step s = .next ((s.withEvents rest).returnStatus st) := by
  have inProgress : (s.withEvents rest).pending.isSome = true := Option.isSome_iff_ne_none.mpr busy
  simp only [step, answered, answerCall, inProgress, if_true, State.complete]

/-- Settles O37. -/
theorem answerIsReturnedUnchanged : Obligations.AnswerIsReturnedUnchanged :=
  fun _ _ _ answered busy => step_answer answered busy

/-- Settles O36: the two ways `exec` can answer a next state are the statement's two cases, and `step_answer` ends the first. -/
theorem oneWriteOfThreeBytesPerCommand : Obligations.OneWriteOfThreeBytesPerCommand := by
  intro s t i h
  obtain ⟨-, ⟨c, fail, rfl⟩ | ⟨pass, rfl⟩⟩ := exec_next h
  · right
    have notPassed : firstFailure i.handlePresent (operandFailure i) s ≠ none := by simp [fail]
    rw [Ne, firstFailure_eq_none_iff_passes] at notPassed
    exact ⟨notPassed, rfl, _, rfl⟩
  · left
    obtain ⟨wf, writePresent, address⟩ := (firstFailure_eq_none_iff_passes i).mp pass
    obtain ⟨b0, b1, b2, bytes⟩ := encode_eq_three_bytes (updateOf i s).modeA (updateOf i s).modeB i
    refine ⟨wf, writePresent, address, rfl, b0, b1, b2, ?_, bytes.symm, fun st rest answered => ?_⟩
    · rw [State.issue_trace, updateOf_trace, updateOf_busAddr, ← bytes]
      rfl
    · exact ⟨_, step_answer answered (Option.some_ne_none _), rfl, rfl⟩

end Sys2Proof.Machine
end

