-- ==== Sys2Proof/Proofs/WriteChannel.lean ====
section
/-! PROOFS. `WRITE_CHANNEL` (spec/41_write_channel.md R75): the four checks in their order, then the one write of three bytes. -/

namespace Sys2Proof.Machine

variable {s : State}

/- ## The checks of any operation, in order -/

/-- R63: the illegal addresses. -/
theorem busAddrValid_eq_false_iff (a : BusAddr) : busAddrValid a = false ↔ a > 0x7F := by
  rw [← Bool.not_eq_true, busAddrValid_iff, BitVec.not_le]

/-- R64: an operand outside its enumeration fails the operand check, with the code every operand check has. -/
theorem operandFailure_of_invalid {i : Instr} (invalid : i.operandsValid = false) :
    operandFailure i = some .invalidParameter := by
  rw [← Bool.not_eq_true, ← operandFailure_eq_none_iff] at invalid
  obtain ⟨c, fail⟩ := Option.ne_none_iff_exists'.mp invalid
  rw [fail, operandFailure_eq_some fail]

/-- Phase 1 of R60 written out (R61 to R64, R114): with nothing in progress the first failed check decides the status, and a
request that fails none is updated, built and issued. -/
theorem exec_of_idle (idle : s.pending = none) (i : Instr) :
    exec i s =
      if i.handlePresent = false then .next { s with trace := s.trace ++ [.status 0xFB] }
      else if s.writePresent = false then .next { s with trace := s.trace ++ [.status 0xFB] }
      else if s.busAddr > 0x7F then .next { s with trace := s.trace ++ [.status 0xFC] }
      else if i.operandsValid = false then .next { s with trace := s.trace ++ [.status 0xFC] }
      else .next ((updateOf i s).issue i.op (i.wire (updateOf i s).modeA (updateOf i s).modeB)) := by
  split_ifs with handle write address operands
  · exact exec_of_firstFailure idle (firstFailure_absent _ (.inl handle))
  · exact exec_of_firstFailure idle (firstFailure_absent _ (.inr write))
  all_goals rw [Bool.not_eq_false] at handle write
  · exact exec_of_firstFailure idle (firstFailure_address _ handle write ((busAddrValid_eq_false_iff _).mpr address))
  all_goals rw [← busAddrValid_eq_false_iff, Bool.not_eq_false] at address
  · exact exec_of_firstFailure idle
      ((firstFailure_operands _ handle write address).trans (operandFailure_of_invalid operands))
  · rw [Bool.not_eq_false, ← operandFailure_eq_none_iff] at operands
    have pass := (firstFailure_operands _ handle write address).trans operands
    exact (exec_eq_runCommand i).trans (runCommand_issues idle pass)

/- ## `WRITE_CHANNEL` -/

/-- R64, row `WRITE_CHANNEL`, as R75 writes the check: the selector is none of the three. -/
theorem writeChannel_operandsInvalid_iff (hp : Bool) (channel : BitVec 8) (value : BitVec 16) :
    (Instr.writeChannel hp channel value).operandsValid = false ↔ channel ≠ 0x01 ∧ channel ≠ 0x08 ∧ channel ≠ 0x09 := by
  rw [← Bool.not_eq_true, Instr.operandsValid, channelValid_iff, not_or, not_or]

/-- R75, R78: an issued `WRITE_CHANNEL` has made one call with its three bytes and waits for the answer; nothing else changed. -/
theorem issue_writeChannel (hp : Bool) (channel : BitVec 8) (value : BitVec 16) (a b : ModeCode) :
    s.issue .writeChannel ((Instr.writeChannel hp channel value).wire a b) =
      { s with
        pending := some .writeChannel
        trace := s.trace ++
          [.call (.write s.busAddr
            [0x3#4 ++ channel.extractLsb' 0 4, value.extractLsb' 4 8, 0x0#4 ++ value.extractLsb' 0 4] 3)] } := by
  rw [← encode_writeChannel a b hp]
  rfl

/-- Settles O17: the chain of checks is `exec_of_idle`, its last branch `issue_writeChannel`, and the answer `step_answer`. -/
theorem writeChannelFollowsItsPseudocode : Obligations.WriteChannelFollowsItsPseudocode := by
  intro s hp channel value idle
  refine ⟨?_, fun t st rest _ busy answered => step_answer answered busy⟩
  rw [← issue_writeChannel hp channel value s.modeA s.modeB]
  simp only [exec_of_idle idle, writeChannel_operandsInvalid_iff]
  rfl

end Sys2Proof.Machine
end

