-- ==== Sys2Proof/Proofs/SetOperatingMode.lean ====
section
/-! PROOFS. `SET_OPERATING_MODE` (spec/42_set_operating_mode.md): the register update of R87, and the power-mode byte of R88 that is
built from both registers after it. -/

namespace Sys2Proof

/-- The bytes of `SET_OPERATING_MODE` (R44): both registers, and nothing of the request's own operands. -/
theorem encode_setOperatingMode (a b : ModeCode) (hp : Bool) (channel mode : BitVec 8) :
    encode a b (.setOperatingMode hp channel mode) = [0x40, 0x00, a ++ 0x0#4 ++ b] := by
  rw [← powerByte_eq_append]
  rfl

/-- The power-mode byte in the shift form of R88. -/
theorem powerByte_eq_shift_or (a b : ModeCode) : powerByte a b = (a.setWidth 8 <<< 6) ||| b.setWidth 8 := by
  have low : fieldAt Config.pdbPos b = b.setWidth 8 := BitVec.shiftLeft_zero _
  rw [powerByte, low]
  rfl

end Sys2Proof

namespace Sys2Proof.Machine

variable {s : State} {hp : Bool} {channel mode : BitVec 8}

/- ## The checks -/

/-- R86: the operands are valid when the mode is one of the four and the channel one of the three. -/
theorem setOperatingMode_operandsValid_iff :
    (Instr.setOperatingMode hp channel mode).operandsValid = true ↔
      mode ≤ 3 ∧ (channel = 0x01 ∨ channel = 0x08 ∨ channel = 0x09) := by
  rw [Instr.operandsValid, Bool.and_eq_true, modeValid_iff, channelValid_iff]

/-- R60: with nothing in progress, a request that passes every check is updated, built and issued. -/
theorem exec_of_passes {i : Instr} (idle : s.pending = none)
    (pass : firstFailure i.handlePresent (operandFailure i) s = none) :
    exec i s = .next ((updateOf i s).issue i.op (i.wire (updateOf i s).modeA (updateOf i s).modeB)) :=
  (exec_eq_runCommand i).trans (runCommand_issues idle pass)

/-- R61 to R64, R86: `SET_OPERATING_MODE` passes when the checks before the dispatch pass and the channel is one of the three. -/
theorem setOperatingMode_passes_iff :
    firstFailure hp (operandFailure (.setOperatingMode hp channel mode)) s = none ↔
      (hp = true ∧ s.writePresent = true ∧ s.busAddr ≤ 0x7F ∧ mode ≤ 3) ∧
        (channel = 0x01 ∨ channel = 0x08 ∨ channel = 0x09) := by
  rw [firstFailure_eq_none_iff, busAddrValid_iff, operandFailure_eq_none_iff, setOperatingMode_operandsValid_iff]
  simp only [and_assoc]

/-- R86: past the common checks, an invalid channel ends the command, whatever the mode: a mode check that fails first gives the same
code (C7). -/
theorem setOperatingMode_fails_of_invalidChannel (checks : hp = true ∧ s.writePresent = true ∧ s.busAddr ≤ 0x7F)
    (invalid : ¬(channel = 0x01 ∨ channel = 0x08 ∨ channel = 0x09)) :
    firstFailure hp (operandFailure (.setOperatingMode hp channel mode)) s = some .invalidParameter := by
  obtain ⟨handle, writePresent, address⟩ := checks
  have operands : (Instr.setOperatingMode hp channel mode).operandsValid = false := by
    rw [← Bool.not_eq_true, setOperatingMode_operandsValid_iff]
    exact fun valid => invalid valid.2
  rw [firstFailure_operands _ handle writePresent ((busAddrValid_iff _).mpr address), operandFailure_of_invalid operands]

/- ## The register update -/

/-- R87: `MODE_A` after the update of a `SET_OPERATING_MODE`. -/
theorem updateOf_setOperatingMode_modeA :
    (updateOf (.setOperatingMode hp channel mode) s).modeA =
      if channel = 0x01 ∨ channel = 0x09 then mode.extractLsb' 0 2 else s.modeA :=
  State.storeMode_modeA s channel (modeCode mode)

/-- R87: `MODE_B` after the update of a `SET_OPERATING_MODE`. -/
theorem updateOf_setOperatingMode_modeB :
    (updateOf (.setOperatingMode hp channel mode) s).modeB =
      if channel = 0x08 ∨ channel = 0x09 then mode.extractLsb' 0 2 else s.modeB :=
  State.storeMode_modeB s channel (modeCode mode)

/- ## The obligations -/

/-- Settles O25: an issued command has run the update, and the two columns of R87's table are read at the three channels; a command
that fails a check has changed the record alone. -/
theorem modeUpdateByChannel : Obligations.ModeUpdateByChannel := by
  intro s hp channel mode idle
  by_cases checks : hp = true ∧ s.writePresent = true ∧ s.busAddr ≤ 0x7F ∧ mode ≤ 3
  · by_cases valid : channel = 0x01 ∨ channel = 0x08 ∨ channel = 0x09
    · have pass := setOperatingMode_passes_iff.mpr ⟨checks, valid⟩
      refine ⟨_, exec_of_passes idle pass, fun _ => ?_, absurd checks⟩
      rw [State.issue_modeA, State.issue_modeB, updateOf_setOperatingMode_modeA, updateOf_setOperatingMode_modeB]
      refine ⟨?_, ?_, ?_, fun ⟨notA, notB, notBoth⟩ => absurd valid (not_or_intro notA (not_or_intro notB notBoth))⟩
      all_goals
        rintro rfl
        simp
    · obtain ⟨handle, writePresent, address, -⟩ := checks
      have fail := setOperatingMode_fails_of_invalidChannel (mode := mode) ⟨handle, writePresent, address⟩ valid
      refine ⟨_, exec_of_firstFailure idle fail, fun _ => ⟨?_, ?_, ?_, fun _ => ⟨rfl, rfl, idle, rfl⟩⟩, fun _ => ⟨rfl, rfl⟩⟩
      · exact fun isA => absurd (.inl isA) valid
      · exact fun isB => absurd (.inr (.inl isB)) valid
      · exact fun isBoth => absurd (.inr (.inr isBoth)) valid
  · have notPassed : firstFailure hp (operandFailure (.setOperatingMode hp channel mode)) s ≠ none :=
      fun pass => checks (setOperatingMode_passes_iff.mp pass).1
    obtain ⟨c, fail⟩ := Option.ne_none_iff_exists'.mp notPassed
    exact ⟨_, exec_of_firstFailure idle fail, fun passed => absurd passed checks, fun _ => ⟨rfl, rfl⟩⟩

/-- Settles O26: the command is well formed, so it sends format P of the registers as they are after the update. -/
theorem powerByteCarriesBothModes : Obligations.PowerByteCarriesBothModes := by
  intro s channel mode ready modeLegal channelLegal
  have wf : (Instr.setOperatingMode true channel mode).wellFormed = true :=
    (setOperatingMode_operandsValid_iff (hp := true)).mpr ⟨modeLegal, channelLegal⟩
  obtain ⟨t, issued, sent⟩ := exec_sends_encode ready wf
  rw [encode_setOperatingMode] at sent
  exact ⟨t, _, _, issued, sent, (powerByte_eq_append _ _).symm.trans (powerByte_eq_shift_or _ _)⟩

end Sys2Proof.Machine
end

