-- ==== Sys2Proof/Proofs/Exceptions.lean ====
section
/-! PROOFS. The causes of the encoder's own two status codes (spec/60_exceptions.md R111, R112): a code is returned exactly when the
first failed check gives it, and each code has the causes of its table and no other. -/

namespace Sys2Proof.Machine

variable {s : State}

/- ## From the code returned to the check that failed -/

/-- R53: no two status codes have the same bits. -/
theorem statusBits_injective : Function.Injective statusBits := by
  intro c c'
  cases c <;> cases c' <;> decide

/-- R65, R110: with nothing in progress, a command ends at once with a status code exactly when its first failed check gives that
code: the code is read off the record, and a command that was issued is still in progress. -/
theorem exec_ends_with_iff {i : Instr} {c : StatusCode} (idle : s.pending = none) :
    exec i s = .next { s with trace := s.trace ++ [.status (statusBits c)] } ↔
      firstFailure i.handlePresent (operandFailure i) s = some c := by
  refine ⟨fun ended => ?_, exec_of_firstFailure idle⟩
  obtain ⟨-, ⟨c', fail, returned⟩ | ⟨-, issued⟩⟩ := exec_next ended
  · have sameBits : statusBits c = statusBits c' := by simpa using congrArg State.trace returned
    rw [fail, statusBits_injective sameBits]
  · have busy : s.pending = some i.op := congrArg State.pending issued
    exact absurd (idle.symm.trans busy) (Option.some_ne_none _).symm

/- ## The causes of each code -/

/-- R111: the first failed check gives `NullReference` exactly when the handle or the write capability is absent; the checks after
those two give another code. -/
theorem firstFailure_eq_nullReference_iff (i : Instr) :
    firstFailure i.handlePresent (operandFailure i) s = some .nullReference ↔
      i.handlePresent = false ∨ s.writePresent = false := by
  refine ⟨fun fail => ?_, firstFailure_absent _⟩
  by_contra present
  rw [not_or, Bool.not_eq_false, Bool.not_eq_false] at present
  obtain ⟨handle, writePresent⟩ := present
  cases address : busAddrValid s.busAddr with
  | false =>
    rw [firstFailure_address _ handle writePresent address] at fail
    cases fail
  | true =>
    rw [firstFailure_operands _ handle writePresent address] at fail
    cases operandFailure_eq_some fail

/-- R112, R114: the first failed check gives `InvalidParameter` exactly when handle and write capability are present and the address
or an operand is outside its range: it is what remains when some check fails and the code is not `NullReference`. -/
theorem firstFailure_eq_invalidParameter_iff (i : Instr) :
    firstFailure i.handlePresent (operandFailure i) s = some .invalidParameter ↔
      i.handlePresent = true ∧ s.writePresent = true ∧ (s.busAddr > 0x7F ∨ i.operandsValid = false) := by
  have remains : firstFailure i.handlePresent (operandFailure i) s = some .invalidParameter ↔
      firstFailure i.handlePresent (operandFailure i) s ≠ none ∧
        firstFailure i.handlePresent (operandFailure i) s ≠ some .nullReference := by
    cases fail : firstFailure i.handlePresent (operandFailure i) s with
    | none => simp
    | some c => obtain rfl | rfl := firstFailure_eq_some fail <;> simp
  rw [remains, Ne, Ne, firstFailure_eq_none_iff_passes, firstFailure_eq_nullReference_iff, Instr.wellFormed, Bool.and_eq_true,
    gt_iff_lt, ← BitVec.not_le, ← Bool.not_eq_true, ← Bool.not_eq_true, ← Bool.not_eq_true]
  tauto

/- ## The operands outside their ranges -/

/-- R112, rows of the mode and the channel for `SET_OPERATING_MODE`. -/
theorem setOperatingMode_operandsInvalid_iff (hp : Bool) (channel mode : BitVec 8) :
    (Instr.setOperatingMode hp channel mode).operandsValid = false ↔
      mode > 3 ∨ (channel ≠ 0x01 ∧ channel ≠ 0x08 ∧ channel ≠ 0x09) := by
  rw [← Bool.not_eq_true, setOperatingMode_operandsValid_iff, not_and_or, BitVec.not_le, not_or, not_or]

/-- R112, row of the reference selection for `SET_REFERENCE_MODE`. -/
theorem setReferenceMode_operandsInvalid_iff (hp : Bool) (refSel : BitVec 8) :
    (Instr.setReferenceMode hp refSel).operandsValid = false ↔ refSel > 1 := by
  rw [← Bool.not_eq_true, Instr.operandsValid, refSelValid_iff, BitVec.not_le]

/- ## The obligations -/

/-- Settles O33: the code on the wires is the first failed check's, and `firstFailure_eq_nullReference_iff` lists its causes. -/
theorem nullReferenceCauses : Obligations.NullReferenceCauses := by
  intro s i idle
  rw [← statusBits_nullReference, exec_ends_with_iff idle, firstFailure_eq_nullReference_iff]

/-- Settles O34: the code on the wires is the first failed check's, and each operation has the operand ranges of its own row. -/
theorem invalidParameterCauses : Obligations.InvalidParameterCauses := by
  intro s i idle
  rw [← statusBits_invalidParameter, exec_ends_with_iff idle, firstFailure_eq_invalidParameter_iff]
  cases i with
  | writeChannel hp channel value => rw [writeChannel_operandsInvalid_iff]
  | setOperatingMode hp channel mode => rw [setOperatingMode_operandsInvalid_iff]
  | setReferenceMode hp refSel => rw [setReferenceMode_operandsInvalid_iff]

end Sys2Proof.Machine
end

