-- ==== Sys2Proof/Proofs/WireFormats.lean ====
section
/-! PROOFS. Encoding and decoding of the three wire formats are inverse to each other (spec/30_encoding.md R57), and what a request
sends reads back as the request but for the bits the wire loses. -/

namespace Sys2Proof

/- ## Formats P and F byte by byte -/

/-- The wire command of format P (R44), its last byte under the name the field lemmas use. -/
theorem encode_powerDac (pda pdb : ModeCode) : (WireCommand.powerDac pda pdb).encode = [0x40, 0x00, powerByte pda pdb] := rfl

/-- The wire command of format F (R45). -/
theorem encode_refSetup (refSel : BitVec 1) : (WireCommand.refSetup refSel).encode = [0x70, 0x00, fieldAt Config.refPos refSel] :=
  rfl

/-- The last byte of format F: seven reserved zeros above the reference bit (R45). -/
theorem refByte_eq_append : ∀ r : BitVec 1, fieldAt Config.refPos r = 0x0#7 ++ r := by decide

/-- The bytes of `SET_REFERENCE_MODE` (R45). -/
theorem encode_setReferenceMode (a b : ModeCode) (hp : Bool) (refSel : BitVec 8) :
    encode a b (.setReferenceMode hp refSel) = [0x70, 0x00, 0x0#7 ++ refSel.extractLsb' 0 1] := by
  rw [← refByte_eq_append]
  rfl

/-- Settles O11. -/
theorem formatPLayout : Obligations.FormatPLayout := encode_setOperatingMode

/-- Settles O12. -/
theorem formatFLayout : Obligations.FormatFLayout := encode_setReferenceMode

/- ## The command nibble chooses the format -/

section
variable {b0 b1 b2 : Byte}

theorem decode_of_cmdWriteDac (nibble : fieldOf 4 4 b0 = Config.cmdWriteDac) :
    decode [b0, b1, b2] = decodeWriteDac b0 b1 b2 :=
  if_pos nibble

theorem decode_of_cmdPowerDac (nibble : fieldOf 4 4 b0 = Config.cmdPowerDac) :
    decode [b0, b1, b2] = decodePowerDac b0 b1 b2 := by
  have notWrite : ¬Config.cmdPowerDac = Config.cmdWriteDac := by decide
  rw [decode, nibble, if_neg notWrite, if_pos rfl]

theorem decode_of_cmdRefSetup (nibble : fieldOf 4 4 b0 = Config.cmdRefSetup) :
    decode [b0, b1, b2] = decodeRefSetup b0 b1 b2 := by
  have notWrite : ¬Config.cmdRefSetup = Config.cmdWriteDac := by decide
  have notPower : ¬Config.cmdRefSetup = Config.cmdPowerDac := by decide
  rw [decode, nibble, if_neg notWrite, if_neg notPower, if_pos rfl]

end

/- ## Decoding what was encoded -/

/-- R57: every wire command is read back from its bytes. -/
@[simp] theorem decode_encode (w : WireCommand) : decode w.encode = .ok w := by
  cases w with
  | writeDac channel value =>
    rw [WireCommand.encode, decode_of_cmdWriteDac (commandByte_command _ _)]
    simp [decodeWriteDac]
  | powerDac pda pdb =>
    have selector : fieldOf 4 0 0x40#8 = 0#4 := by decide
    rw [encode_powerDac, decode_of_cmdPowerDac (by decide)]
    simp [decodePowerDac, selector]
  | refSetup refSel =>
    have selector : fieldOf 4 0 0x70#8 = 0#4 := by decide
    rw [encode_refSetup, decode_of_cmdRefSetup (by decide)]
    simp [decodeRefSetup, selector]

/-- Settles O7. -/
theorem decodeInvertsEncode : Obligations.DecodeInvertsEncode := decode_encode

/-- No two wire commands have the same bytes. -/
theorem encode_injective : Function.Injective WireCommand.encode := fun w w' sameBytes => by
  have read := congrArg decode sameBytes
  rwa [decode_encode, decode_encode, Except.ok.injEq] at read

/- ## Encoding what was decoded -/

section
variable {b0 b1 b2 : Byte} {w : WireCommand}

/-- The command byte of a format whose selector nibble is reserved is fixed by its command nibble (R41). -/
theorem eq_commandByte {command selector : BitVec 4} (nibble : fieldOf 4 4 b0 = command) (low : fieldOf 4 0 b0 = selector) :
    b0 = commandByte command selector := by
  rw [← nibble, ← low, commandByte_fields]

/-- Format W: a byte cut off the front of the value and the nibble behind it are the two parts that are sent. -/
theorem encode_of_decodeWriteDac (nibble : fieldOf 4 4 b0 = Config.cmdWriteDac) (h : decodeWriteDac b0 b1 b2 = .ok w) :
    w.encode = [b0, b1, b2] := by
  unfold decodeWriteDac at h
  split_ifs at h with reserved
  cases h
  have front (n : BitVec 4) : (b1 ++ n).extractLsb' 4 8 = b1 := BitVec.extractLsb'_append_eq_left
  have back (n : BitVec 4) : (b1 ++ n).extractLsb' 0 4 = n := BitVec.extractLsb'_append_eq_right
  rw [WireCommand.encode, ← eq_commandByte nibble rfl, front, back, lowNibble_of_top b2 (not_not.mp reserved)]

/-- Format P: everything but the two mode fields is zero. -/
theorem encode_of_decodePowerDac (nibble : fieldOf 4 4 b0 = Config.cmdPowerDac) (h : decodePowerDac b0 b1 b2 = .ok w) :
    w.encode = [b0, b1, b2] := by
  unfold decodePowerDac at h
  split_ifs at h with selector byte reserved
  cases h
  rw [eq_commandByte nibble (not_not.mp selector), not_not.mp byte, encode_powerDac,
    powerByte_of_reserved b2 (not_not.mp reserved)]
  rfl

/-- Format F: everything but the reference bit is zero. -/
theorem encode_of_decodeRefSetup (nibble : fieldOf 4 4 b0 = Config.cmdRefSetup) (h : decodeRefSetup b0 b1 b2 = .ok w) :
    w.encode = [b0, b1, b2] := by
  unfold decodeRefSetup at h
  split_ifs at h with selector byte reserved
  cases h
  rw [eq_commandByte nibble (not_not.mp selector), not_not.mp byte, encode_refSetup,
    refByte_of_reserved b2 (not_not.mp reserved)]
  rfl

/-- R50, R57: three bytes that decode are the bytes of what they decode to. -/
theorem encode_of_decode (h : decode [b0, b1, b2] = .ok w) : w.encode = [b0, b1, b2] := by
  dsimp only [decode] at h
  split_ifs at h with write power reference
  · exact encode_of_decodeWriteDac write h
  · exact encode_of_decodePowerDac power h
  · exact encode_of_decodeRefSetup reference h

end

/-- R40: only three bytes decode. -/
theorem eq_three_bytes_of_decode {bytes : List Byte} {w : WireCommand} (h : decode bytes = .ok w) :
    ∃ b0 b1 b2, bytes = [b0, b1, b2] := by
  unfold decode at h
  split at h
  · exact ⟨_, _, _, rfl⟩
  · cases h

/-- Settles O8: the bytes are three, and each format rebuilds them from their fields and its zeros. -/
theorem decodedBytesReencode : Obligations.DecodedBytesReencode := by
  intro bytes w h
  obtain ⟨b0, b1, b2, rfl⟩ := eq_three_bytes_of_decode h
  exact encode_of_decode h

/- ## Reading a request back -/

/-- The request read from the bytes of a request is the one read from its wire command. -/
theorem decodeRequest_encode (a b : ModeCode) (i : Instr) : decodeRequest (encode a b i) = .ok (i.wire a b).request := by
  rw [decodeRequest, encode, decode_encode]

/-- R43, R46: the low nibble alone tells the three valid selectors. -/
theorem channel_of_lowNibble {channel : BitVec 8} (valid : Machine.channelValid channel = true) :
    (channel.extractLsb' 0 4).setWidth 8 = channel := by
  obtain rfl | rfl | rfl := (Machine.channelValid_iff channel).mp valid <;> decide

/-- R43: the 12 bits that are sent, read as a value. -/
theorem value_of_wireBits (value : BitVec 16) : (value.extractLsb' 0 12).setWidth 16 = value &&& 0x0FFF := by
  have mask : (0x0FFF : BitVec 16).toNat = 2 ^ 12 - 1 := rfl
  apply BitVec.eq_of_toNat_eq
  rw [BitVec.toNat_and, mask, Nat.and_two_pow_sub_one_eq_mod, BitVec.toNat_setWidth, BitVec.extractLsb'_toNat,
    Nat.shiftRight_zero]
  omega

/-- R48: a valid reference selection is its low bit. -/
theorem refSel_of_lowBit {refSel : BitVec 8} (valid : Machine.refSelValid refSel = true) :
    (refSel.extractLsb' 0 1).setWidth 8 = refSel := by
  revert refSel
  decide

/-- Settles O9: each operand that reads back is the one its wire field stands for. -/
theorem requestReadsBackButForLostBits : Obligations.RequestReadsBackButForLostBits := by
  intro i a b wf
  obtain ⟨-, valid⟩ := (Bool.and_eq_true _ _).mp wf
  cases i with
  | writeChannel hp channel value =>
    dsimp only
    rw [decodeRequest_encode, Instr.wire, wireOfWrite, WireCommand.request, channel_of_lowNibble valid, value_of_wireBits]
  | setOperatingMode hp channel mode => exact decode_encode _
  | setReferenceMode hp refSel =>
    dsimp only
    rw [decodeRequest_encode, Instr.wire, wireOfReference, WireCommand.request, refSel_of_lowBit valid]

/-- Settles O6: closed words, each evaluated. -/
theorem listedWordsDecode : Obligations.ListedWordsDecode := by
  unfold Obligations.ListedWordsDecode
  decide

end Sys2Proof
end

