-- ==== Sys2Proof/Proofs/Steps.lean ====
section
/-! PROOFS. One step and the run of many: what each event does, which events are refused (spec/70_reset_and_hazards.md R141), and
`Stepped`, all a step can do with the outcome of a request's checks in view, for the proofs about every step. -/

namespace Sys2Proof.Machine

variable {s t : State} {rest : List Event}

/- ## The host's own acts -/

/-- An operation that is free between commands answers there. -/
theorem between_commands {pending : Option Op} {r : Refusal} (idle : pending = none) :
    (if pending.isSome then .refused r else .next t : Result) = .next t := by
  rw [idle]
  rfl

/-- The same operation is refused during a command. -/
theorem refused_during_command {pending : Option Op} {r : Refusal} (busy : pending ≠ none) :
    (if pending.isSome then .refused r else .next t : Result) = .refused r :=
  if_pos (Option.isSome_iff_ne_none.mpr busy)

/-- Settles O4. -/
theorem stepRunsPresentedRequest : Obligations.StepRunsPresentedRequest := by
  intro s i rest presented
  rw [step, presented]
  rfl

/-- Settles O5: the word stands for the request as the very next event, with nothing in progress. -/
theorem stepRunsDecodedWord : Obligations.StepRunsDecodedWord := by
  intro s nbits w i decoded
  have presented : s.withFetchWord nbits w = { s with pending := none, events := .request i :: s.events } := by
    rw [State.withFetchWord, presentWord, decoded]
  rw [presented]
  exact stepRunsPresentedRequest _ i s.events rfl

/-- Settles O2: the two branches of `populate`. -/
theorem configurationChangesOnlyBetweenCommands : Obligations.ConfigurationChangesOnlyBetweenCommands := by
  intro s wp rp dp addr rest comes
  have runs : step s = populate wp rp dp addr (s.withEvents rest) := by rw [step, comes]
  rw [runs]
  exact ⟨between_commands, refused_during_command⟩

/-- Settles O3: the two branches of `readModes`. -/
theorem hostReadsModesWithoutSideEffect : Obligations.HostReadsModesWithoutSideEffect := by
  intro s rest comes
  have runs : step s = readModes (s.withEvents rest) := by rw [step, comes]
  rw [runs]
  exact ⟨between_commands, refused_during_command⟩

/-- Settles O1: the fields of `State.reset`, and the two branches of `create`. -/
theorem resetClearsModesAndSendsNothing : Obligations.ResetClearsModesAndSendsNothing := by
  refine ⟨⟨rfl, rfl, rfl, rfl⟩, fun s wp rp dp addr rest comes => ?_⟩
  have runs : step s = create wp rp dp addr (s.withEvents rest) := by rw [step, comes]
  rw [runs]
  exact ⟨between_commands, refused_during_command⟩

/- ## The issue of a request -/

/-- A request once it has passed its checks: phases 2 to 4 of R60, the register update, the building of the bytes from the updated
registers, and the one transport write. -/
def issueOf (i : Instr) (s : State) : State :=
  (updateOf i s).issue i.op (i.wire (updateOf i s).modeA (updateOf i s).modeB)

section
variable (i : Instr)

@[simp] theorem issueOf_modeA : (issueOf i s).modeA = (updateOf i s).modeA := rfl
@[simp] theorem issueOf_modeB : (issueOf i s).modeB = (updateOf i s).modeB := rfl
@[simp] theorem issueOf_pending : (issueOf i s).pending = some i.op := rfl
@[simp] theorem issueOf_writePresent : (issueOf i s).writePresent = s.writePresent := updateOf_writePresent i
@[simp] theorem issueOf_readPresent : (issueOf i s).readPresent = s.readPresent := updateOf_readPresent i
@[simp] theorem issueOf_delayPresent : (issueOf i s).delayPresent = s.delayPresent := updateOf_delayPresent i
@[simp] theorem issueOf_busAddr : (issueOf i s).busAddr = s.busAddr := updateOf_busAddr i
@[simp] theorem issueOf_events : (issueOf i s).events = s.events := updateOf_events i

/-- R67: the issue adds one write of the request's bytes to the record. -/
@[simp] theorem issueOf_trace :
    (issueOf i s).trace =
      s.trace ++ [.call (.write s.busAddr (encode (updateOf i s).modeA (updateOf i s).modeB i) 3)] := by
  rw [issueOf, State.issue_trace, updateOf_trace, updateOf_busAddr]
  rfl

/-- R60: with nothing in progress, a request that passes its checks is issued. -/
theorem exec_issues (idle : s.pending = none) (pass : firstFailure i.handlePresent (operandFailure i) s = none) :
    exec i s = .next (issueOf i s) :=
  exec_of_passes idle pass

/-- A well-formed request in a ready state is issued. -/
theorem exec_of_ready (ready : s.Ready) (wf : i.wellFormed = true) : exec i s = .next (issueOf i s) := by
  obtain ⟨idle, writePresent, address⟩ := ready
  exact exec_issues i idle ((firstFailure_eq_none_iff_passes i).mpr ⟨wf, writePresent, address⟩)

/-- A request that left a command in progress was issued, having passed its checks. -/
theorem issued_of_busy {i : Instr} (h : exec i s = .next t) (busy : t.pending ≠ none) :
    s.pending = none ∧ firstFailure i.handlePresent (operandFailure i) s = none ∧ t = issueOf i s := by
  obtain ⟨idle, ⟨c, fail, rfl⟩ | ⟨pass, rfl⟩⟩ := exec_next h
  · exact absurd rfl busy
  · exact ⟨idle, pass, rfl⟩

end

/- ## Refusals -/

/-- R134: while a command is in progress no request is taken. -/
theorem exec_of_busy (i : Instr) (busy : s.pending ≠ none) : exec i s = .refused .requestWhileBusy :=
  (exec_eq_runCommand i).trans (if_pos (Option.isSome_iff_ne_none.mpr busy))

/-- A request is refused for no other reason. -/
theorem exec_refused {i : Instr} {r : Refusal} (h : exec i s = .refused r) : s.pending ≠ none ∧ r = .requestWhileBusy := by
  rw [exec_eq_runCommand] at h
  obtain ⟨busy, reason⟩ := runCommand_refused h
  exact ⟨Option.isSome_iff_ne_none.mp busy, reason⟩

/-- With nothing in progress every request is taken. -/
theorem exec_next_of_idle (i : Instr) (idle : s.pending = none) : ∃ t, exec i s = .next t := by
  cases fail : firstFailure i.handlePresent (operandFailure i) s with
  | none => exact ⟨_, exec_issues i idle fail⟩
  | some c => exact ⟨_, exec_of_firstFailure idle fail⟩

/-- Settles O43. -/
theorem requestWhileBusyIsRefused : Obligations.RequestWhileBusyIsRefused := by
  refine ⟨fun s i busy => exec_of_busy i busy, fun s i j others rest together => ?_⟩
  rw [step, together]
  rfl

/-- Whether a state keeps the rules is decided by its next event (R141). -/
theorem permitted_iff {e : Event} (comes : s.events = e :: rest) :
    s.Permitted ↔ eventPermitted s.pending.isSome e = true := by
  simp [State.Permitted, comes]

/-- `eventPermitted` of what the host may do between commands. -/
theorem notBusy_iff_idle : (!s.pending.isSome) = true ↔ s.pending = none := by simp

/-- R141: when the next event, if there is one, is permitted, the step answers a next state. -/
theorem step_of_permitted (permitted : s.Permitted) : ∃ t, step s = .next t := by
  rw [step]
  cases comes : s.events with
  | nil => exact ⟨s, rfl⟩
  | cons e rest =>
    rw [permitted_iff comes] at permitted
    cases e with
    | request i => exact exec_next_of_idle i (notBusy_iff_idle.mp permitted)
    | answer st => exact ⟨_, if_pos permitted⟩
    | populate | readModes | create => exact ⟨_, between_commands (notBusy_iff_idle.mp permitted)⟩
    | requestsTogether | writeModes | noRequest => cases permitted

/-- The other direction: a step on an event that is not permitted is refused. -/
theorem step_of_not_permitted (forbidden : ¬s.Permitted) : ∃ r, step s = .refused r := by
  rw [step]
  cases comes : s.events with
  | nil => exact absurd (by simp [State.Permitted, comes]) forbidden
  | cons e rest =>
    rw [permitted_iff comes] at forbidden
    cases e with
    | request i => exact ⟨_, exec_of_busy i (mt notBusy_iff_idle.mpr forbidden)⟩
    | answer st => exact ⟨_, if_neg forbidden⟩
    | populate | readModes | create => exact ⟨_, refused_during_command (mt notBusy_iff_idle.mpr forbidden)⟩
    | requestsTogether | writeModes | noRequest => exact ⟨_, rfl⟩

/-- Settles O45: each state falls under one of the two lemmas, whose outcomes exclude each other. -/
theorem onlyForbiddenEventsAreRefused : Obligations.OnlyForbiddenEventsAreRefused := by
  intro s
  by_cases permitted : s.Permitted
  · obtain ⟨t, next⟩ := step_of_permitted permitted
    simp [permitted, next]
  · obtain ⟨r, refused⟩ := step_of_not_permitted permitted
    simp [permitted, refused]

/- ## Runs -/

/-- A run of one step more, begun by that step. -/
theorem run_succ (k : Nat) (h : step s = .next t) : core.run (k + 1) s = core.run k t := by
  have first : core.step s = .next t := h
  simp only [Host.Core.run, first]

/-- A run whose first step is refused ends there. -/
theorem run_succ_refused {r : Refusal} (k : Nat) (h : step s = .refused r) : core.run (k + 1) s = .refused r := by
  have first : core.step s = .refused r := h
  simp only [Host.Core.run, first]

/-- A run goes on from the state it has reached. -/
theorem run_add {j : Nat} (k : Nat) (h : core.run j s = .next t) : core.run (j + k) s = core.run k t := by
  induction j generalizing s with
  | zero =>
    cases h
    rw [Nat.zero_add]
  | succ j ih =>
    cases first : step s with
    | next u =>
      rw [run_succ _ first] at h
      rw [Nat.succ_add, run_succ _ first, ih h]
    | fault r => cases r
    | refused r =>
      rw [run_succ_refused _ first] at h
      cases h

/-- R137: with no event to come, nothing changes any more. -/
theorem run_of_silence (silent : s.events = []) (k : Nat) : core.run k s = .next s := by
  have waits : step s = .next s := by
    rw [step, silent]
    rfl
  induction k with
  | zero => rfl
  | succ k ih => rw [run_succ k waits, ih]

/-- Settles O44: silence changes nothing, busy or not. -/
theorem silentTransportHangsForEver : Obligations.SilentTransportHangsForEver :=
  fun _ k _ silent => run_of_silence silent k

/-- Settles O46, by induction on the length of the run: its first step is permitted, and the rules are kept after it too. -/
theorem keptRulesRunForEver : Obligations.KeptRulesRunForEver := by
  intro s kept k
  induction k generalizing s with
  | zero => exact ⟨s, rfl⟩
  | succ k ih =>
    obtain ⟨t, first⟩ := step_of_permitted (kept 0 s rfl)
    rw [run_succ k first]
    exact ih t fun j u reached => kept (j + 1) u ((run_succ j first).trans reached)

/- ## All a step can do -/

/-- The seven ways from a state to the next: `step_next` with the two outcomes of a request's checks told apart. -/
inductive Stepped (s : State) : State → Prop where
  | silent (none_come : s.events = []) : Stepped s s
  | failed {i : Instr} {rest : List Event} {c : StatusCode} (comes : s.events = .request i :: rest) (idle : s.pending = none)
      (fail : firstFailure i.handlePresent (operandFailure i) s = some c) :
      Stepped s ((s.withEvents rest).returnStatus (statusBits c))
  | issued {i : Instr} {rest : List Event} (comes : s.events = .request i :: rest) (idle : s.pending = none)
      (pass : firstFailure i.handlePresent (operandFailure i) s = none) :
      Stepped s (issueOf i (s.withEvents rest))
  | answered {st : Status} {rest : List Event} (comes : s.events = .answer st :: rest) (busy : s.pending ≠ none) :
      Stepped s ((s.withEvents rest).returnStatus st)
  | populated {wp rp dp : Bool} {a : BusAddr} {rest : List Event} (comes : s.events = .populate wp rp dp a :: rest)
      (idle : s.pending = none) :
      Stepped s { s with writePresent := wp, readPresent := rp, delayPresent := dp, busAddr := a, events := rest }
  | modesRead {rest : List Event} (comes : s.events = .readModes :: rest) (idle : s.pending = none) :
      Stepped s ((s.withEvents rest).observe (.modes s.modeA s.modeB))
  | created {wp rp dp : Bool} {a : BusAddr} {rest : List Event} (comes : s.events = .create wp rp dp a :: rest)
      (idle : s.pending = none) :
      Stepped s
        { State.reset with
          writePresent := wp, readPresent := rp, delayPresent := dp, busAddr := a
          events := rest, trace := s.trace ++ [.created] }

/-- Every step that answers a next state is one of them. -/
theorem stepped_of_step (h : step s = .next t) : Stepped s t := by
  obtain ⟨comes, rfl⟩ | ⟨e, rest, comes, ways⟩ := step_next h
  · exact .silent comes
  obtain ⟨i, rfl, executed⟩ | ⟨st, rfl, busy, rfl⟩ | ⟨wp, rp, dp, a, rfl, idle, rfl⟩ | ⟨rfl, idle, rfl⟩ |
    ⟨wp, rp, dp, a, rfl, idle, rfl⟩ := ways
  · obtain ⟨idle, ⟨c, fail, rfl⟩ | ⟨pass, rfl⟩⟩ := exec_next executed
    · exact .failed comes idle fail
    · exact .issued comes idle pass
  · exact .answered comes (Option.isSome_iff_ne_none.mp busy)
  · exact .populated comes idle
  · exact .modesRead comes idle
  · exact .created comes idle

end Sys2Proof.Machine
end

