-- ==== Sys2Proof/Proofs/Invariants.lean ====
section
/-! PROOFS. The three invariants of the record: one access at a time (spec/20_memory.md R35), the mode registers as the last power-mode
command carried them (spec/10_state.md R22), and a legal bus (R25, R30, R51). -/

namespace Sys2Proof

/-- The wire command of a request belongs to the request's own operation (R42). -/
@[simp] theorem Instr.wire_op (i : Instr) (a b : ModeCode) : (i.wire a b).op = i.op := by cases i <;> rfl

/-- R51: a well-formed request sends a wire command that the encoder is listed to produce. -/
theorem Instr.wire_producible {i : Instr} (wf : i.wellFormed = true) (a b : ModeCode) : (i.wire a b).producible = true := by
  cases i with
  | writeChannel hp channel value =>
    obtain ⟨-, valid⟩ := (Bool.and_eq_true _ _).mp wf
    rw [Instr.wire, wireOfWrite, WireCommand.producible, channel_of_lowNibble valid]
    exact valid
  | setOperatingMode hp channel mode => rfl
  | setReferenceMode hp refSel => rfl

end Sys2Proof

namespace Sys2Proof.Machine

variable {s : State}

/-- Settles O47: the record of a fresh encoder is empty. -/
theorem invariantsHoldAtReset : Obligations.InvariantsHoldAtReset :=
  ⟨rfl, rfl, fun _ seen => absurd seen List.not_mem_nil⟩

/- ## One access at a time -/

/-- The bytes of a wire command tell its operation. -/
@[simp] theorem opOfBytes_encode (w : WireCommand) : opOfBytes w.encode = some w.op := by rw [opOfBytes, decode_encode]

/-- The record read one observation further. -/
@[simp] theorem pendingOfTrace_append (trace : List Obs) (o : Obs) :
    pendingOfTrace (trace ++ [o]) = blockingStep (pendingOfTrace trace) o := by
  rw [pendingOfTrace, List.foldl_append]
  rfl

/-- A status may be seen at any time, and after it nothing is in progress. -/
@[simp] theorem blockingStep_status (p : Option Op) (st : Status) : blockingStep (some p) (.status st) = some none := by
  cases p <;> rfl

/-- Between commands, the write of a request begins its operation. -/
@[simp] theorem blockingStep_write (addr : BusAddr) (a b : ModeCode) (i : Instr) (n : BitVec 32) :
    blockingStep (some none) (.call (.write addr (encode a b i) n)) = some (some i.op) := by
  rw [blockingStep, encode, opOfBytes_encode, Instr.wire_op]
  rfl

/-- Settles O48: each step shows the outside one thing at most, and only what may be seen then. -/
theorem stepKeepsTraceOrdered : Obligations.StepKeepsTraceOrdered := by
  intro s t ordered h
  unfold State.TraceOrdered at ordered ⊢
  cases stepped_of_step h with
  | silent => exact ordered
  | failed comes idle fail => simp [ordered]
  | issued comes idle pass => simp [ordered, idle]
  | answered comes busy => simp [ordered]
  | populated comes idle => exact ordered
  | modesRead comes idle =>
    rw [State.observe_trace, State.withEvents_trace, pendingOfTrace_append, ordered, State.observe_pending,
      State.withEvents_pending, idle]
    rfl
  | created comes idle =>
    rw [pendingOfTrace_append, ordered, idle]
    rfl

/- ## The modes as sent -/

/-- The modes a bus listener knows, one observation further. -/
@[simp] theorem sentModes_append (trace : List Obs) (o : Obs) :
    sentModes (trace ++ [o]) = sentModesStep (sentModes trace) o := by
  rw [sentModes, List.foldl_append]
  rfl

/-- A listener to the write of a request, who knows the registers before it, knows them after its update: a power-mode command carries
them both, and the other two change none (R71, R87, R88). -/
theorem sentModesStep_of_request (i : Instr) (addr : BusAddr) (n : BitVec 32) :
    sentModesStep (s.modeA, s.modeB) (.call (.write addr (encode (updateOf i s).modeA (updateOf i s).modeB i) n)) =
      ((updateOf i s).modeA, (updateOf i s).modeB) := by
  rw [sentModesStep, encode, decode_encode]
  cases i <;> rfl

/-- Settles O49: only an issued command and a reset touch the registers, and the record shows both. -/
theorem stepKeepsModesAsSent : Obligations.StepKeepsModesAsSent := by
  intro s t asSent h
  unfold State.ModesAsSent at asSent ⊢
  cases stepped_of_step h with
  | silent => exact asSent
  | failed comes idle fail => simpa [sentModesStep] using asSent
  | @issued i rest comes idle pass =>
    have heard := sentModesStep_of_request (s := s.withEvents rest) i s.busAddr 3
    simpa [asSent] using heard
  | answered comes busy => simpa [sentModesStep] using asSent
  | populated comes idle => exact asSent
  | modesRead comes idle => simpa [sentModesStep] using asSent
  | created comes idle => rw [sentModes_append]; rfl

/- ## A legal bus -/

/-- A legal record stays legal when the next observation is. -/
theorem callsLegal_append {t : State} {o : Obs} (legal : s.CallsLegal) (grows : t.trace = s.trace ++ [o]) (next : callLegal o) :
    t.CallsLegal := by
  intro seen mem
  rw [grows, List.mem_append, List.mem_singleton] at mem
  obtain past | rfl := mem
  · exact legal seen past
  · exact next

/-- Settles O50: the only call a step makes is the write of a request that passed its checks. -/
theorem stepKeepsCallsLegal : Obligations.StepKeepsCallsLegal := by
  intro s t legal h
  cases stepped_of_step h with
  | silent => exact legal
  | failed comes idle fail => exact callsLegal_append legal rfl trivial
  | @issued i rest comes idle pass =>
    obtain ⟨wf, -, address⟩ := (firstFailure_eq_none_iff_passes i).mp pass
    exact callsLegal_append legal (issueOf_trace i) ⟨address, rfl, _, Instr.wire_producible wf _ _, rfl⟩
  | answered comes busy => exact callsLegal_append legal rfl trivial
  | populated comes idle => exact legal
  | modesRead comes idle => exact callsLegal_append legal rfl trivial
  | created comes idle => exact callsLegal_append legal rfl trivial

end Sys2Proof.Machine
end

