-- ==== Sys2Proof/Proofs/ProducedWords.lean ====
section
/-! PROOFS. The words the encoder puts on the bus (spec/30_encoding.md R51): they are the words of the producible wire commands, they
have the listed shapes, there are 12306 of them, and the request read from each sends it again. -/

namespace Sys2Proof

/- ## A word as three bytes -/

section
variable (b0 b1 b2 : Byte)

theorem threeBytes_first : (b0 ++ b1 ++ b2).extractLsb' 16 8 = b0 := by
  rw [BitVec.extractLsb'_append_eq_of_le (by decide), BitVec.extractLsb'_append_eq_left]

theorem threeBytes_second : (b0 ++ b1 ++ b2).extractLsb' 8 8 = b1 := by
  rw [BitVec.extractLsb'_append_eq_of_le (by decide), BitVec.extractLsb'_append_eq_right]

theorem threeBytes_third : (b0 ++ b1 ++ b2).extractLsb' 0 8 = b2 := BitVec.extractLsb'_append_eq_right

variable {b0 b1 b2}

/-- Two words are equal byte by byte. -/
theorem threeBytes_inj {c0 c1 c2 : Byte} : b0 ++ b1 ++ b2 = c0 ++ c1 ++ c2 ↔ b0 = c0 ∧ b1 = c1 ∧ b2 = c2 := by
  refine ⟨fun same => ⟨?_, ?_, ?_⟩, fun ⟨first, second, third⟩ => by rw [first, second, third]⟩
  · rw [← threeBytes_first b0 b1 b2, same, threeBytes_first]
  · rw [← threeBytes_second b0 b1 b2, same, threeBytes_second]
  · rw [← threeBytes_third b0 b1 b2, same, threeBytes_third]

end

/-- Every 24-bit word is three bytes (R40). -/
theorem exists_threeBytes (w : BitVec 24) : ∃ b0 b1 b2 : Byte, w = b0 ++ b1 ++ b2 := by
  have upper : w.extractLsb' 16 8 ++ w.extractLsb' 8 8 = w.extractLsb' 8 16 :=
    BitVec.extractLsb'_append_extractLsb'_eq_extractLsb' rfl
  have whole : w.extractLsb' 8 16 ++ w.extractLsb' 0 8 = w := BitVec.extractLsb'_append_extractLsb'
  exact ⟨w.extractLsb' 16 8, w.extractLsb' 8 8, w.extractLsb' 0 8, by rw [upper, whole]⟩

/-- The bytes of a word are determined by it. -/
theorem wordOfBytes_eq_some_iff {bytes : List Byte} {b0 b1 b2 : Byte} :
    wordOfBytes bytes = some (b0 ++ b1 ++ b2) ↔ bytes = [b0, b1, b2] := by
  refine ⟨fun word => ?_, fun three => by rw [three]; rfl⟩
  unfold wordOfBytes at word
  split at word
  · obtain ⟨rfl, rfl, rfl⟩ := threeBytes_inj.mp (Option.some.inj word)
    rfl
  · cases word

/- ## The request read from a wire command -/

/-- R51: the request read from a producible wire command is well formed. -/
theorem WireCommand.request_wellFormed {w : WireCommand} (producible : w.producible = true) : w.request.wellFormed = true := by
  cases w with
  | writeDac channel value => exact producible
  | powerDac pda pdb =>
    revert pda pdb
    decide
  | refSetup refSel =>
    revert refSel
    decide

/-- The request read from a wire command sends it, provided that for format P the registers hold its two fields. -/
theorem WireCommand.request_wire {w : WireCommand} {a b : ModeCode} (holds : ∀ pda pdb, w = .powerDac pda pdb → a = pda ∧ b = pdb) :
    w.request.wire a b = w := by
  cases w with
  | writeDac channel value =>
    have selector : ∀ n : BitVec 4, (n.setWidth 8).extractLsb' 0 4 = n := by decide
    have bits : (value.setWidth 16).extractLsb' 0 12 = value := by
      rw [BitVec.extractLsb'_setWidth_of_le (by decide), BitVec.extractLsb'_eq_self]
    rw [WireCommand.request, Instr.wire, wireOfWrite, selector, bits]
  | powerDac pda pdb =>
    obtain ⟨rfl, rfl⟩ := holds pda pdb rfl
    dsimp only [WireCommand.request]
    split_ifs <;> rfl
  | refSetup refSel =>
    have bit : ∀ r : BitVec 1, (r.setWidth 8).extractLsb' 0 1 = r := by decide
    rw [WireCommand.request, Instr.wire, wireOfReference, bit]

/-- The wire commands of well-formed requests are the producible ones. -/
theorem exists_wire_iff_producible (w : WireCommand) :
    (∃ (i : Instr) (a b : ModeCode), i.wellFormed = true ∧ i.wire a b = w) ↔ w.producible = true := by
  refine ⟨fun ⟨i, a, b, wf, sends⟩ => sends ▸ Instr.wire_producible wf a b, fun producible => ?_⟩
  have sendsWith (a b : ModeCode) (holds : ∀ pda pdb, w = .powerDac pda pdb → a = pda ∧ b = pdb) :
      ∃ (i : Instr) (a b : ModeCode), i.wellFormed = true ∧ i.wire a b = w :=
    ⟨w.request, a, b, WireCommand.request_wellFormed producible, WireCommand.request_wire holds⟩
  cases w with
  | writeDac | refSetup => exact sendsWith 0 0 nofun
  | powerDac pda pdb =>
    refine sendsWith pda pdb fun pda' pdb' same => ?_
    cases same
    exact ⟨rfl, rfl⟩

/-- R51: the words of well-formed requests are those of the producible wire commands. -/
theorem exists_request_iff_exists_wire (w : BitVec 24) :
    (∃ (i : Instr) (a b : ModeCode), i.wellFormed = true ∧ wordOfBytes (encode a b i) = some w) ↔
      ∃ c : WireCommand, c.producible = true ∧ wordOfBytes c.encode = some w := by
  constructor
  · rintro ⟨i, a, b, wf, word⟩
    exact ⟨i.wire a b, Instr.wire_producible wf a b, word⟩
  · rintro ⟨c, producible, word⟩
    obtain ⟨i, a, b, wf, rfl⟩ := (exists_wire_iff_producible c).mpr producible
    exact ⟨i, a, b, wf, word⟩

/- ## The listed shapes -/

/-- R51 in bytes. -/
theorem producedWord_threeBytes_iff (b0 b1 b2 : Byte) :
    Machine.producedWord (b0 ++ b1 ++ b2) ↔
      ((b0 = 0x31 ∨ b0 = 0x38 ∨ b0 = 0x39) ∧ fieldOf 4 4 b2 = 0) ∨
      ((b0 = 0x40 ∧ b1 = 0x00) ∧ b2 &&& ~~~powerFieldMask = 0) ∨
      (b0 = 0x70 ∧ b1 = 0x00 ∧ b2 = 0x00) ∨ (b0 = 0x70 ∧ b1 = 0x00 ∧ b2 = 0x01) := by
  have upperNibble : (b0 ++ b1 ++ b2).extractLsb' 4 4 = fieldOf 4 4 b2 := BitVec.extractLsb'_append_eq_of_add_le (by decide)
  have upperBytes : (b0 ++ b1 ++ b2).extractLsb' 8 16 = b0 ++ b1 := BitVec.extractLsb'_append_eq_left
  have middle : (b0 ++ b1 ++ b2).extractLsb' 2 4 = b2.extractLsb' 2 4 := BitVec.extractLsb'_append_eq_of_add_le (by decide)
  have reserved : ∀ b : Byte, b.extractLsb' 2 4 = 0 ↔ b &&& ~~~powerFieldMask = 0 := by decide
  have command : (b0 ++ b1 : BitVec 16) = 0x4000 ↔ b0 = 0x40 ∧ b1 = 0x00 := by
    have split : (0x4000 : BitVec 16) = (0x40 : Byte) ++ (0x00 : Byte) := by decide
    have padded := threeBytes_inj (b0 := b0) (b1 := b1) (b2 := 0) (c0 := 0x40) (c1 := 0x00) (c2 := 0)
    rw [BitVec.append_left_inj] at padded
    rw [split, padded]
    simp
  have refOn : (0x700000 : BitVec 24) = (0x70 : Byte) ++ (0x00 : Byte) ++ (0x00 : Byte) := by decide
  have refOff : (0x700001 : BitVec 24) = (0x70 : Byte) ++ (0x00 : Byte) ++ (0x01 : Byte) := by decide
  rw [Machine.producedWord, threeBytes_first, upperNibble, upperBytes, middle, reserved, command, refOn, refOff, threeBytes_inj,
    threeBytes_inj]

/-- R51: three bytes are those of a producible wire command exactly when they have one of the listed shapes. -/
theorem exists_producible_iff (b0 b1 b2 : Byte) :
    (∃ c : WireCommand, c.producible = true ∧ c.encode = [b0, b1, b2]) ↔ Machine.producedWord (b0 ++ b1 ++ b2) := by
  rw [producedWord_threeBytes_iff]
  constructor
  · rintro ⟨c, producible, bytes⟩
    cases c with
    | writeDac channel value =>
      cases bytes
      have commandBytes : ∀ n : BitVec 4, Machine.channelValid (n.setWidth 8) = true →
          commandByte Config.cmdWriteDac n = 0x31 ∨ commandByte Config.cmdWriteDac n = 0x38 ∨
            commandByte Config.cmdWriteDac n = 0x39 := by decide
      exact .inl ⟨commandBytes channel producible, lowNibble_top _⟩
    | powerDac pda pdb =>
      cases bytes
      exact .inr (.inl ⟨⟨rfl, rfl⟩, powerByte_reserved pda pdb⟩)
    | refSetup refSel =>
      cases bytes
      have bits : ∀ r : BitVec 1, fieldAt Config.refPos r = 0x00 ∨ fieldAt Config.refPos r = 0x01 := by decide
      exact .inr (.inr ((bits refSel).imp (fun on => ⟨rfl, rfl, on⟩) (fun off => ⟨rfl, rfl, off⟩)))
  · rintro (⟨command, reserved⟩ | ⟨⟨rfl, rfl⟩, reserved⟩ | ⟨rfl, rfl, rfl⟩ | ⟨rfl, rfl, rfl⟩)
    · have nibble : fieldOf 4 4 b0 = Config.cmdWriteDac ∧ Machine.channelValid ((fieldOf 4 0 b0).setWidth 8) = true := by
        obtain rfl | rfl | rfl := command <;> decide
      exact ⟨.writeDac (fieldOf 4 0 b0) (b1 ++ fieldOf 4 0 b2), nibble.2,
        encode_of_decode ((decode_of_cmdWriteDac nibble.1).trans (if_neg (not_not.mpr reserved)))⟩
    · exact ⟨.powerDac (fieldOf 2 Config.pdaPos b2) (fieldOf 2 Config.pdbPos b2), rfl,
        by rw [encode_powerDac, powerByte_of_reserved b2 reserved]⟩
    · exact ⟨.refSetup 0, rfl, rfl⟩
    · exact ⟨.refSetup 1, rfl, rfl⟩

/-- Settles O13: well-formed requests send the producible wire commands, whose bytes have the listed shapes. -/
theorem producedWordsAreExactlyTheListed : Obligations.ProducedWordsAreExactlyTheListed := by
  intro w
  obtain ⟨b0, b1, b2, rfl⟩ := exists_threeBytes w
  rw [exists_request_iff_exists_wire]
  simp only [wordOfBytes_eq_some_iff]
  exact exists_producible_iff b0 b1 b2

/- ## Their number -/

/-- R40: a wire command has a 24-bit word. -/
theorem WireCommand.exists_word (c : WireCommand) : ∃ w, wordOfBytes c.encode = some w := by cases c <;> exact ⟨_, rfl⟩

/-- The 24-bit word of a wire command; the default stands for none. -/
def WireCommand.word (c : WireCommand) : BitVec 24 := (wordOfBytes c.encode).getD 0

theorem WireCommand.word_eq_iff (c : WireCommand) (w : BitVec 24) : c.word = w ↔ wordOfBytes c.encode = some w := by
  obtain ⟨w', word⟩ := c.exists_word
  rw [WireCommand.word, word, Option.getD_some, Option.some_inj]

/-- No two wire commands have the same word. -/
theorem WireCommand.word_injective : Function.Injective WireCommand.word := by
  intro c c' same
  obtain ⟨b0, b1, b2, word⟩ := exists_threeBytes c'.word
  have bytes' := wordOfBytes_eq_some_iff.mp ((c'.word_eq_iff _).mp word)
  have bytes := wordOfBytes_eq_some_iff.mp ((c.word_eq_iff _).mp (same.trans word))
  exact encode_injective (bytes.trans bytes'.symm)

/-- The producible wire commands of format W (R51): a valid selector and any value. -/
def producibleWrites : List WireCommand :=
  (([0x1, 0x8, 0x9] : List (BitVec 4)) ×ˢ FinEnum.toList (BitVec 12)).map fun p => .writeDac p.1 p.2

/-- Those of format P: any two modes. -/
def produciblePowers : List WireCommand :=
  (FinEnum.toList ModeCode ×ˢ FinEnum.toList ModeCode).map fun p => .powerDac p.1 p.2

/-- Those of format F: either reference bit. -/
def producibleRefs : List WireCommand := (FinEnum.toList (BitVec 1)).map .refSetup

/-- All producible wire commands. -/
def producibleWires : List WireCommand := producibleWrites ++ (produciblePowers ++ producibleRefs)

/-- The selector nibbles the encoder produces (R43, R46). -/
theorem selector_producible_iff : ∀ n : BitVec 4,
    Machine.channelValid (n.setWidth 8) = true ↔ n ∈ ([0x1, 0x8, 0x9] : List (BitVec 4)) := by decide

theorem mem_producibleWires (c : WireCommand) : c ∈ producibleWires ↔ c.producible = true := by
  cases c with
  | writeDac channel value =>
    rw [WireCommand.producible, selector_producible_iff]
    simp [producibleWires, producibleWrites, produciblePowers, producibleRefs, eq_comm]
  | powerDac | refSetup =>
    simp [producibleWires, producibleWrites, produciblePowers, producibleRefs, WireCommand.producible]

theorem nodup_producibleWires : producibleWires.Nodup := by
  have selectors : ([0x1, 0x8, 0x9] : List (BitVec 4)).Nodup := by decide
  have writes : producibleWrites.Nodup :=
    (selectors.product FinEnum.nodup_toList).map fun p q same => by simpa [Prod.ext_iff] using same
  have powers : produciblePowers.Nodup :=
    (FinEnum.nodup_toList.product FinEnum.nodup_toList).map fun p q same => by simpa [Prod.ext_iff] using same
  have refs : producibleRefs.Nodup := FinEnum.nodup_toList.map fun p q same => by cases same; rfl
  have opWrites : ∀ c ∈ producibleWrites, c.op = .writeChannel := List.forall_mem_map.mpr fun _ _ => rfl
  have opPowers : ∀ c ∈ produciblePowers, c.op = .setOperatingMode := List.forall_mem_map.mpr fun _ _ => rfl
  have opRefs : ∀ c ∈ producibleRefs, c.op = .setReferenceMode := List.forall_mem_map.mpr fun _ _ => rfl
  refine writes.append (powers.append refs fun c power ref => ?_) fun c write other => ?_
  · exact nomatch (opPowers c power).symm.trans (opRefs c ref)
  · obtain power | ref := List.mem_append.mp other
    · exact nomatch (opWrites c write).symm.trans (opPowers c power)
    · exact nomatch (opWrites c write).symm.trans (opRefs c ref)

/-- Three selectors of 4096 values each, 16 pairs of modes, two reference selections. -/
theorem length_producibleWires : producibleWires.length = 12306 := by
  have toList_length (n : Nat) : (FinEnum.toList (BitVec n)).length = 2 ^ n := by
    rw [FinEnum.toList, List.length_map, List.length_finRange]
    rfl
  simp [producibleWires, producibleWrites, produciblePowers, producibleRefs, toList_length, List.length_product]

/-- Settles O14: the words of the producible wire commands, each once. -/
theorem producedWordsNumber12306 : Obligations.ProducedWordsNumber12306 := by
  refine ⟨producibleWires.map WireCommand.word, nodup_producibleWires.map WireCommand.word_injective,
    by rw [List.length_map, length_producibleWires], fun w => ?_⟩
  rw [exists_request_iff_exists_wire]
  simp only [List.mem_map, mem_producibleWires, WireCommand.word_eq_iff]

end Sys2Proof

namespace Sys2Proof.Machine

variable {s : State}

/- ## Sending a wire command again -/

/-- Log entry 6: where the register that the request read from a power-mode command does not name holds its field already, the update
of that request leaves both fields in the registers. -/
theorem updateOf_powerRequest {pda pdb : ModeCode}
    (held : pda = pdb ∨ (pda = 0 ∧ s.modeA = 0) ∨ (pda ≠ 0 ∧ s.modeB = pdb)) :
    (updateOf (WireCommand.powerDac pda pdb).request s).modeA = pda ∧
      (updateOf (WireCommand.powerDac pda pdb).request s).modeB = pdb := by
  have low : ∀ m : ModeCode, (m.setWidth 8).extractLsb' 0 2 = m := by decide
  dsimp only [WireCommand.request]
  split_ifs with same zero
  all_goals
    rw [updateOf_setOperatingMode_modeA, updateOf_setOperatingMode_modeB, low]
    simp_all [Config.chA, Config.chB, Config.chBoth]

/-- Settles O15: the request is well formed, so it sends its wire command, built from the registers after its update. -/
theorem readRequestSendsItsWireCommand : Obligations.ReadRequestSendsItsWireCommand := by
  intro s w ready producible held
  refine ⟨_, exec_of_ready w.request ready (WireCommand.request_wellFormed producible), ?_⟩
  have sends : w.request.wire (updateOf w.request s).modeA (updateOf w.request s).modeB = w := by
    refine WireCommand.request_wire fun pda pdb power => ?_
    subst power
    exact updateOf_powerRequest (held pda pdb rfl)
  rw [issueOf_trace, encode, sends]

end Sys2Proof.Machine
end

