-- ==== Sys2Proof/Proofs/TextForm.lean ====
section
/-! PROOFS. The textual form (spec/30_encoding.md R54): each operand reads back from its token, by name or by number. -/

namespace Sys2Proof.Machine

/-- An operand read back by its number. -/
@[simp] theorem readNumber_toNat {w : Nat} (x : BitVec w) : readNumber w x.toNat = some x := by
  rw [readNumber, if_pos x.isLt, BitVec.ofNat_toNat, BitVec.setWidth_eq]

/-- R54: a channel reads back, valid or not. -/
@[simp] theorem readChannel_channelText (channel : BitVec 8) : readChannel (channelText channel) = some channel := by
  unfold channelText
  split_ifs with isA isB isBoth
  · exact congrArg some isA.symm
  · exact congrArg some isB.symm
  · exact congrArg some isBoth.symm
  · exact readNumber_toNat channel

/-- R54: a mode reads back, valid or not. -/
@[simp] theorem readMode_modeText (mode : BitVec 8) : readMode (modeText mode) = some mode := by
  unfold modeText
  split_ifs with isNormal isPd1k isPd10k isTriState
  · exact congrArg some isNormal.symm
  · exact congrArg some isPd1k.symm
  · exact congrArg some isPd10k.symm
  · exact congrArg some isTriState.symm
  · exact readNumber_toNat mode

/-- R54: a reference selection reads back, valid or not. -/
@[simp] theorem readRefSel_refSelText (refSel : BitVec 8) : readRefSel (refSelText refSel) = some refSel := by
  unfold refSelText
  split_ifs with isOn isOff
  · exact congrArg some isOn.symm
  · exact congrArg some isOff.symm
  · exact readNumber_toNat refSel

/-- R54: an output value reads back. -/
@[simp] theorem readValue_number (value : BitVec 16) : readValue (.number value.toNat) = some value := readNumber_toNat value

/-- Settles O16: the first word tells the operation, and each operand reads back. -/
theorem textReadsBack : Obligations.TextReadsBack := by
  intro i handle
  cases i with
  | writeChannel hp channel value =>
    obtain rfl : hp = true := handle
    simp [instrText, readInstr]
  | setOperatingMode hp channel mode =>
    obtain rfl : hp = true := handle
    simp [instrText, readInstr]
  | setReferenceMode hp refSel =>
    obtain rfl : hp = true := handle
    simp [instrText, readInstr]

end Sys2Proof.Machine
end

