-- ==== Sys2Proof/Proofs/Operations.lean ====
section
/-! PROOFS. What each operation does from its request to its status: the pseudocode of R85 and R100, the completion in two steps (R60,
R68), and what stays in the mode registers (R89, R91). -/

namespace Sys2Proof.Machine

variable {s t : State}

/- ## Status codes and the address check -/

/-- Settles O30: six closed codes, each evaluated. -/
theorem statusCodeBits : Obligations.StatusCodeBits := by
  refine ⟨by decide, by decide, by decide, by decide, statusBits_invalidParameter, statusBits_nullReference, fun c => ?_⟩
  cases c <;> decide

/-- Settles O32: the address is the first check to fail. -/
theorem illegalAddressGivesInvalidParameter : Obligations.IllegalAddressGivesInvalidParameter := by
  intro s i idle handle writePresent illegal
  have fail := firstFailure_address (operandFailure i) handle writePresent ((busAddrValid_eq_false_iff _).mpr illegal)
  rw [exec_of_firstFailure idle fail, statusBits_invalidParameter]

/- ## The pseudocode -/

/-- R86: the mode check and then the dispatch on the channel, as the pseudocode of R85 orders them, decide like the operand check of
the whole request. -/
theorem operandCheck_eq_dispatch {α : Type} {hp : Bool} {channel mode : BitVec 8} {fail pass onA onB onBoth : α}
    (isA : channel = 0x01 → pass = onA) (isB : channel = 0x08 → pass = onB) (isBoth : channel = 0x09 → pass = onBoth) :
    (if (Instr.setOperatingMode hp channel mode).operandsValid = false then fail else pass) =
      if mode > 3 then fail
      else if channel = 0x01 then onA
      else if channel = 0x08 then onB
      else if channel = 0x09 then onBoth
      else fail := by
  by_cases modeInvalid : mode > 3
  · simp only [setOperatingMode_operandsInvalid_iff, modeInvalid, true_or, if_true]
  · simp only [setOperatingMode_operandsInvalid_iff, modeInvalid, false_or, if_false]
    split_ifs <;> simp_all

/-- R88, R67: an issued `SET_OPERATING_MODE` has made one call with both registers as they are and waits for the answer. -/
theorem issue_setOperatingMode (hp : Bool) (channel mode : BitVec 8) :
    s.issue .setOperatingMode ((Instr.setOperatingMode hp channel mode).wire s.modeA s.modeB) =
      { s with
        pending := some .setOperatingMode
        trace := s.trace ++ [.call (.write s.busAddr [0x40, 0x00, s.modeA ++ 0x0#4 ++ s.modeB] 3)] } := by
  rw [← encode_setOperatingMode s.modeA s.modeB hp channel mode]
  rfl

/-- Settles O18: the chain of checks is `exec_of_idle`, its operand check the dispatch of R85, each branch of which has written its
registers before the one call. -/
theorem setOperatingModeFollowsItsPseudocode : Obligations.SetOperatingModeFollowsItsPseudocode := by
  intro s hp channel mode idle
  refine ⟨?_, fun t st rest _ busy answered => step_answer answered busy⟩
  rw [exec_of_idle idle, operandCheck_eq_dispatch]
  · rfl
  all_goals
    rintro rfl
    exact congrArg Host.Outcome.next (issue_setOperatingMode hp _ mode)

/-- R100, R102: an issued `SET_REFERENCE_MODE` has made one call with its three bytes and waits for the answer; nothing else changed. -/
theorem issue_setReferenceMode (hp : Bool) (refSel : BitVec 8) (a b : ModeCode) :
    s.issue .setReferenceMode ((Instr.setReferenceMode hp refSel).wire a b) =
      { s with
        pending := some .setReferenceMode
        trace := s.trace ++ [.call (.write s.busAddr [0x70, 0x00, 0x0#7 ++ refSel.extractLsb' 0 1] 3)] } := by
  rw [← encode_setReferenceMode a b hp]
  rfl

/-- Settles O19: the chain of checks is `exec_of_idle`, and its last branch `issue_setReferenceMode`. -/
theorem setReferenceModeFollowsItsPseudocode : Obligations.SetReferenceModeFollowsItsPseudocode := by
  intro s hp refSel idle
  refine ⟨?_, fun t st rest _ busy answered => step_answer answered busy⟩
  rw [← issue_setReferenceMode hp refSel s.modeA s.modeB]
  simp only [exec_of_idle idle, setReferenceMode_operandsInvalid_iff]
  rfl

/- ## Completion in two steps -/

/-- Two states with the same fields are the same. -/
theorem State.eq_of_fields (modeA : s.modeA = t.modeA) (modeB : s.modeB = t.modeB) (pending : s.pending = t.pending)
    (writePresent : s.writePresent = t.writePresent) (readPresent : s.readPresent = t.readPresent)
    (delayPresent : s.delayPresent = t.delayPresent) (busAddr : s.busAddr = t.busAddr) (events : s.events = t.events)
    (trace : s.trace = t.trace) : s = t := by
  cases s
  cases t
  simp_all

/-- R87: the register update writes registers and looks at nothing but the request: a change of the state that leaves such writes alone
may be made before the update or after it. -/
theorem updateOf_commutes {g : State → State} (i : Instr) (writeA : ∀ m u, g { u with modeA := m } = { g u with modeA := m })
    (writeB : ∀ m u, g { u with modeB := m } = { g u with modeB := m }) : updateOf i (g s) = g (updateOf i s) := by
  cases i with
  | writeChannel | setReferenceMode => rfl
  | setOperatingMode hp channel mode =>
    simp only [updateOf, State.storeMode]
    split_ifs
    · exact (writeA _ s).symm
    · exact (writeB _ s).symm
    · have both := writeB (modeCode mode) { s with modeA := modeCode mode }
      rw [writeA] at both
      exact both.symm
    · rfl

/-- The register update looks at nothing the outside will do. -/
theorem updateOf_withEvents (i : Instr) (es : List Event) : updateOf i (s.withEvents es) = (updateOf i s).withEvents es :=
  updateOf_commutes i (fun _ _ => rfl) (fun _ _ => rfl)

/-- R60, R68: a well-formed request in a ready state completes in two steps: its register update, one write of its bytes, and the
answer as its status. -/
theorem run_two_completes {i : Instr} {st : Status} {rest : List Event} (ready : s.Ready) (wf : i.wellFormed = true)
    (comes : s.events = .request i :: .answer st :: rest) :
    core.run 2 s = .next
      { s with
        modeA := (updateOf i s).modeA
        modeB := (updateOf i s).modeB
        events := rest
        trace := s.trace ++
          [.call (.write s.busAddr (encode (updateOf i s).modeA (updateOf i s).modeB i) 3), .status st] } := by
  have readyNext : (s.withEvents (.answer st :: rest)).Ready := ready
  have issued : step s = .next (issueOf i (s.withEvents (.answer st :: rest))) :=
    (stepRunsPresentedRequest s i _ comes).trans (exec_of_ready i readyNext wf)
  have answered : step (issueOf i (s.withEvents (.answer st :: rest))) = .next _ :=
    step_answer (issueOf_events i) (Option.some_ne_none i.op)
  rw [run_succ 1 issued, run_succ 0 answered]
  refine congrArg Host.Outcome.next (State.eq_of_fields ?_ ?_ ?_ ?_ ?_ ?_ ?_ ?_ ?_) <;>
    simp [ready, updateOf_withEvents]

/-- Settles O20: the request is well formed on each of the three channels, and updates nothing. -/
theorem writeChannelCompletes : Obligations.WriteChannelCompletes := by
  intro s channel value st rest ready valid comes
  rw [run_two_completes ready ((writeChannel_wellFormed_iff channel value).mpr valid) comes, encode_writeChannel]
  rfl

/-- Settles O22: the request is well formed on both selections, and updates nothing. -/
theorem setReferenceModeCompletes : Obligations.SetReferenceModeCompletes := by
  intro s refSel st rest ready valid comes
  have wf : (Instr.setReferenceMode true refSel).wellFormed = true := (refSelValid_iff refSel).mpr valid
  have bit : ∀ r : BitVec 8, r ≤ 1 → 0x0#7 ++ r.extractLsb' 0 1 = if r = 1 then 0x01 else 0x00 := by decide
  rw [run_two_completes ready wf comes, encode_setReferenceMode, bit refSel valid]
  rfl

/-- Settles O21: on each of the three channels the update writes what the statement names. -/
theorem setOperatingModeCompletes : Obligations.SetOperatingModeCompletes := by
  intro s channel mode st rest a b ready modeLegal valid isA isB comes
  have wf : (Instr.setOperatingMode true channel mode).wellFormed = true :=
    (setOperatingMode_operandsValid_iff (hp := true)).mpr ⟨modeLegal, valid⟩
  have storedA : (updateOf (.setOperatingMode true channel mode) s).modeA = a := by
    rw [updateOf_setOperatingMode_modeA, isA]
    obtain rfl | rfl | rfl := valid <;> simp
  have storedB : (updateOf (.setOperatingMode true channel mode) s).modeB = b := by
    rw [updateOf_setOperatingMode_modeB, isB]
    obtain rfl | rfl | rfl := valid <;> simp
  rw [run_two_completes ready wf comes, storedA, storedB, encode_setOperatingMode]

end Sys2Proof.Machine
end

