-- ==== Sys2Proof/Proofs/ModeRegisters.lean ====
section
/-! PROOFS. The mode registers along several commands (spec/42_set_operating_mode.md R89 to R91): what they send first after reset, that
they keep their new values whatever the transport does, and that a repeated command is sent again. -/

namespace Sys2Proof.Machine

variable {s t : State}

/-- R87, R88: a valid `SET_OPERATING_MODE` in a ready state for channel A sends the new mode beside channel B's register. -/
theorem exec_setOperatingMode_A {mode : BitVec 8} (ready : s.Ready) (modeLegal : mode ≤ 3) :
    ∃ v, exec (.setOperatingMode true 0x01 mode) s = .next v ∧
      v.trace = s.trace ++ [.call (.write s.busAddr [0x40, 0x00, mode.extractLsb' 0 2 ++ 0x0#4 ++ s.modeB] 3)] := by
  have wf : (Instr.setOperatingMode true 0x01 mode).wellFormed = true :=
    (setOperatingMode_operandsValid_iff (hp := true)).mpr ⟨modeLegal, .inl rfl⟩
  refine ⟨_, exec_of_ready _ ready wf, ?_⟩
  rw [issueOf_trace, encode_setOperatingMode]
  rfl

/-- R87, R88: the same for channel B. -/
theorem exec_setOperatingMode_B {mode : BitVec 8} (ready : s.Ready) (modeLegal : mode ≤ 3) :
    ∃ v, exec (.setOperatingMode true 0x08 mode) s = .next v ∧
      v.trace = s.trace ++ [.call (.write s.busAddr [0x40, 0x00, s.modeA ++ 0x0#4 ++ mode.extractLsb' 0 2] 3)] := by
  have wf : (Instr.setOperatingMode true 0x08 mode).wellFormed = true :=
    (setOperatingMode_operandsValid_iff (hp := true)).mpr ⟨modeLegal, .inr (.inl rfl)⟩
  refine ⟨_, exec_of_ready _ ready wf, ?_⟩
  rw [issueOf_trace, encode_setOperatingMode]
  rfl

/-- Settles O28: the other channel's register is sent, and it holds its reset mode 0. -/
theorem firstModeCommandSendsZeroForOtherChannel : Obligations.FirstModeCommandSendsZeroForOtherChannel := by
  intro s mode ready freshA freshB modeLegal
  have onA := exec_setOperatingMode_A ready modeLegal
  have onB := exec_setOperatingMode_B ready modeLegal
  rw [freshB] at onA
  rw [freshA] at onB
  exact ⟨onA, onB⟩

/-- Settles O27: the registers were written at the issue; an answer changes neither, and leaves a ready state in which a mode command
sends the other channel's register; silence changes nothing. -/
theorem failedTransmitKeepsNewModes : Obligations.FailedTransmitKeepsNewModes := by
  intro s t hp channel mode executed busy
  obtain ⟨-, pass, rfl⟩ := issued_of_busy executed busy
  obtain ⟨-, writePresent, address⟩ := (firstFailure_eq_none_iff_passes _).mp pass
  refine ⟨fun isA => ?_, fun isB => ?_, fun st rest answered => ?_, fun k u silent reached => ?_⟩
  · rw [issueOf_modeA, updateOf_setOperatingMode_modeA, if_pos isA]
  · rw [issueOf_modeB, updateOf_setOperatingMode_modeB, if_pos isB]
  · refine ⟨_, step_answer answered busy, rfl, rfl, rfl, rfl, fun later laterLegal => ?_⟩
    have ready : (((issueOf (.setOperatingMode hp channel mode) s).withEvents rest).returnStatus st).Ready :=
      ⟨rfl, (issueOf_writePresent _).trans writePresent, (issueOf_busAddr (s := s) _).symm ▸ address⟩
    obtain ⟨v, executedA, sentA⟩ := exec_setOperatingMode_A ready laterLegal
    obtain ⟨v', executedB, sentB⟩ := exec_setOperatingMode_B ready laterLegal
    exact ⟨⟨v, _, _, executedA, sentA⟩, ⟨v', _, _, executedB, sentB⟩⟩
  · rw [run_of_silence silent k] at reached
    cases reached
    exact ⟨rfl, rfl⟩

/-- R90: a register update run again changes nothing more. -/
theorem updateOf_modes_again (i : Instr) (a : (updateOf i s).modeA = t.modeA) (b : (updateOf i s).modeB = t.modeB) :
    (updateOf i t).modeA = t.modeA ∧ (updateOf i t).modeB = t.modeB := by
  cases i with
  | writeChannel | setReferenceMode => exact ⟨rfl, rfl⟩
  | setOperatingMode hp channel mode =>
    rw [updateOf_setOperatingMode_modeA] at a ⊢
    rw [updateOf_setOperatingMode_modeB] at b ⊢
    constructor
    · split_ifs at a ⊢
      · exact a
      · rfl
    · split_ifs at b ⊢
      · exact b
      · rfl

/-- Settles O29: the command was issued, so it passes its checks again; its update finds its own result, and the bytes are the same. -/
theorem repeatedCommandIsSentAgain : Obligations.RepeatedCommandIsSentAgain := by
  intro s t u i c st executed sent answered
  obtain ⟨busy, rfl⟩ := answerCall_next answered
  obtain ⟨-, pass, rfl⟩ := issued_of_busy executed (Option.isSome_iff_ne_none.mp busy)
  obtain ⟨wf, writePresent, address⟩ := (firstFailure_eq_none_iff_passes i).mp pass
  have ready : ((issueOf i s).returnStatus st).Ready :=
    ⟨rfl, (issueOf_writePresent i).trans writePresent, (issueOf_busAddr (s := s) i).symm ▸ address⟩
  obtain ⟨sameA, sameB⟩ := updateOf_modes_again (s := s) (t := (issueOf i s).returnStatus st) i rfl rfl
  refine ⟨_, exec_of_ready i ready wf, ?_, sameA, sameB⟩
  rw [issueOf_trace] at sent
  have first := List.append_cancel_left sent
  rw [issueOf_trace, sameA, sameB, State.returnStatus_busAddr, issueOf_busAddr]
  rw [← first]
  rfl

end Sys2Proof.Machine
end

