-- ==== Sys2Proof/Proofs/Frames.lean ====
section
/-! PROOFS. What the operations and the steps leave unchanged, and what they do not look at (spec/10_state.md R13, R15; R71, R78; R122;
spec/60_exceptions.md R110). -/

namespace Sys2Proof

/-- R49, R76: `value[15:12]` reaches no wire command. -/
theorem wireOfWrite_congr (channel : BitVec 8) {v w : BitVec 16} (low : v.extractLsb' 0 12 = w.extractLsb' 0 12) :
    wireOfWrite channel v = wireOfWrite channel w := by
  rw [wireOfWrite, wireOfWrite, low]

end Sys2Proof

namespace Sys2Proof.Machine

variable {s t : State}

/-- Settles O24: the value enters the meaning through its wire command alone. -/
theorem topValueBitsNeverMatter : Obligations.TopValueBitsNeverMatter := by
  intro s hp channel v w low
  have dispatch (x : BitVec 16) : exec (.writeChannel hp channel x) s = execWriteChannel hp channel x s := rfl
  rw [dispatch, dispatch, execWriteChannel, execWriteChannel, wireOfWrite_congr channel low]

/-- R71, R78: only `SET_OPERATING_MODE` has a register update. -/
theorem updateOf_eq_self {i : Instr} (other : i.op ≠ .setOperatingMode) : updateOf i s = s := by
  cases i with
  | writeChannel | setReferenceMode => rfl
  | setOperatingMode => exact absurd rfl other

/- ## What a command leaves unchanged -/

/-- A status on the record is no write to any address. -/
@[simp] theorem writesAt_status (addr : BusAddr) (trace : List Obs) (st : Status) :
    writesAt addr (trace ++ [.status st]) = writesAt addr trace := by simp [writesAt]

/-- A write to another address is none to this one. -/
theorem writesAt_write_of_ne {addr a : BusAddr} (ne : addr ≠ a) (trace : List Obs) (data : List Byte) (n : BitVec 32) :
    writesAt addr (trace ++ [.call (.write a data n)]) = writesAt addr trace := by simp [writesAt, ne.symm]

/-- Settles O39: a failed check adds a status, and an issue adds one write to the handle's own address. -/
theorem commandsLeaveTheRestUnchanged : Obligations.CommandsLeaveTheRestUnchanged := by
  intro s t i executed
  obtain ⟨-, ⟨c, -, rfl⟩ | ⟨-, issued⟩⟩ := exec_next executed
  · exact ⟨rfl, rfl, rfl, rfl, rfl, List.prefix_append _ _, fun addr _ => writesAt_status addr _ _, fun _ => ⟨rfl, rfl⟩⟩
  · obtain rfl : t = issueOf i s := issued
    refine ⟨issueOf_writePresent i, issueOf_readPresent i, issueOf_delayPresent i, issueOf_busAddr i, issueOf_events i, ?_,
      fun addr ne => ?_, fun other => ?_⟩
    · exact issueOf_trace i ▸ List.prefix_append _ _
    · rw [issueOf_trace, writesAt_write_of_ne ne]
    · rw [issueOf_modeA, issueOf_modeB, updateOf_eq_self other]
      exact ⟨rfl, rfl⟩

/-- Settles O40: of the ways a step can go, only an issued command and a reset touch the registers. -/
theorem onlyModeCommandAndResetChangeModes : Obligations.OnlyModeCommandAndResetChangeModes := by
  refine ⟨fun s t h changed => ?_, fun s a b rest comes => by rw [step, comes]; rfl⟩
  cases stepped_of_step h with
  | silent | failed | answered | populated | modesRead => simp at changed
  | @issued i rest comes idle pass =>
    left
    cases i with
    | writeChannel | setReferenceMode => simp [updateOf] at changed
    | setOperatingMode hp channel mode => exact ⟨hp, channel, mode, rest, comes, rfl⟩
  | created comes idle => exact .inr ⟨_, _, _, _, _, comes⟩

/-- Settles O38: of the ways a step can go, only a failed check and an answer put a status on the record. -/
theorem everyStatusIsAnswerOrOwnCode : Obligations.EveryStatusIsAnswerOrOwnCode := by
  intro s t st h returned
  cases stepped_of_step h with
  | silent | populated | modesRead | created | issued => simp at returned
  | @failed i rest c comes idle fail =>
    obtain rfl : statusBits c = st := by simpa using returned
    refine .inr ⟨i, rest, comes, idle, ?_⟩
    obtain rfl | rfl := firstFailure_eq_some fail
    · exact .inl statusBits_nullReference
    · exact .inr statusBits_invalidParameter
  | @answered st' rest comes busy =>
    obtain rfl : st' = st := by simpa using returned
    exact .inl ⟨rest, comes, busy⟩

/- ## What a command does not look at -/

/-- The checks of a command look at the write capability and the bus address alone. -/
theorem firstFailure_congr (hp : Bool) (f : Option StatusCode) (writePresent : t.writePresent = s.writePresent)
    (busAddr : t.busAddr = s.busAddr) : firstFailure hp f t = firstFailure hp f s := by
  rw [firstFailure, firstFailure, bindingFailure, bindingFailure, writePresent, busAddr]

/-- A change of the state that a command does not look at may be made before the command or after it: one that keeps `pending` and
what the checks look at, and that both outcomes of the checks leave alone. -/
theorem exec_commutes {g : State → State} (i : Instr) (pending : (g s).pending = s.pending)
    (writePresent : (g s).writePresent = s.writePresent) (busAddr : (g s).busAddr = s.busAddr)
    (fails : ∀ st, (g s).returnStatus st = g (s.returnStatus st)) (issues : issueOf i (g s) = g (issueOf i s)) :
    (∀ t, exec i s = .next t → exec i (g s) = .next (g t)) ∧ (∀ r, exec i s = .refused r → exec i (g s) = .refused r) := by
  refine ⟨fun t executed => ?_, fun r refused => ?_⟩
  · have sameChecks := firstFailure_congr i.handlePresent (operandFailure i) writePresent busAddr
    obtain ⟨idle, ⟨c, fail, rfl⟩ | ⟨pass, issued⟩⟩ := exec_next executed
    · rw [exec_eq_runCommand, runCommand_fails (pending.trans idle) (sameChecks.trans fail), fails]
    · obtain rfl : t = issueOf i s := issued
      rw [exec_issues i (pending.trans idle) (sameChecks.trans pass), issues]
  · obtain ⟨busy, rfl⟩ := exec_refused refused
    exact exec_of_busy i (pending.trans_ne busy)

/-- The state with other mode registers. -/
def State.withModes (a b : ModeCode) (s : State) : State := { s with modeA := a, modeB := b }

/-- Settles O41: neither operation updates or sends a register. -/
theorem otherCommandsIgnoreModes : Obligations.OtherCommandsIgnoreModes := by
  intro s i a b other
  refine exec_commutes (g := State.withModes a b) i rfl rfl rfl (fun _ => rfl) ?_
  cases i with
  | writeChannel | setReferenceMode => rfl
  | setOperatingMode => exact absurd rfl other

/-- The state with other read and delay bindings. -/
def State.withReadDelay (r d : Bool) (s : State) : State := { s with readPresent := r, delayPresent := d }

/-- R122: the register update does not look at the read and delay bindings. -/
theorem updateOf_withReadDelay (i : Instr) (r d : Bool) : updateOf i (s.withReadDelay r d) = (updateOf i s).withReadDelay r d :=
  updateOf_commutes i (fun _ _ => rfl) (fun _ _ => rfl)

/-- The calls on the record, one observation further. -/
theorem callsOf_append (trace : List Obs) (o : Obs) : callsOf (trace ++ [o]) = callsOf trace ++ callsOf [o] := by
  rw [callsOf, List.filterMap_append]
  rfl

/-- R27, R28: the only calls a step adds to the record are writes. -/
theorem mem_callsOf_of_step {c : TransportCall} (h : step s = .next t) (notWrite : ∀ addr data n, c ≠ .write addr data n)
    (called : c ∈ callsOf t.trace) : c ∈ callsOf s.trace := by
  cases stepped_of_step h with
  | silent | populated => exact called
  | failed | answered | modesRead | created => simpa [callsOf_append, callsOf] using called
  | @issued i rest comes idle pass =>
    rw [issueOf_trace, callsOf_append, List.mem_append] at called
    exact called.resolve_right fun new => notWrite _ _ _ (List.mem_singleton.mp new)

/-- Settles O42: the bindings enter neither the checks nor the update, and a step adds no call but writes. -/
theorem readAndDelayAreNeverUsed : Obligations.ReadAndDelayAreNeverUsed := by
  refine ⟨fun s i r d => ?_, fun s t h => ⟨fun _ _ => mem_callsOf_of_step h nofun, fun _ => mem_callsOf_of_step h nofun⟩⟩
  refine exec_commutes (g := State.withReadDelay r d) i rfl rfl rfl (fun _ => rfl) ?_
  rw [issueOf, updateOf_withReadDelay]
  rfl

end Sys2Proof.Machine
end

