-- ==== Sys2Proof/Proofs/Refinement.lean ====
section
/-! PROOFS. The machine against the document's blocking functions (spec/40_common_sequence.md R60, R72): one call is one request and, if
the transport was called, its answer; a list of calls follows by induction. -/

namespace Sys2Proof.Machine

variable {s : State}

/- ## One blocking call -/

/-- R75, R85, R100: the blocking call of any operation as the common checks, the operand check, and what a command that passes them
sends and leaves in the registers. -/
theorem blockingCall_eq (st : Status) (s : State) (i : Instr) :
    blockingCall st s.handle i =
      if i.handlePresent = false then ⟨0xFB, none, s.handle⟩
      else if s.writePresent = false then ⟨0xFB, none, s.handle⟩
      else if s.busAddr > 0x7F then ⟨0xFC, none, s.handle⟩
      else if i.operandsValid = false then ⟨0xFC, none, s.handle⟩
      else
        ⟨st, some (.write s.busAddr (encode (updateOf i s).modeA (updateOf i s).modeB i) 3), (updateOf i s).handle⟩ := by
  cases i with
  | writeChannel hp channel value =>
    simp only [writeChannel_operandsInvalid_iff, encode_writeChannel]
    rfl
  | setOperatingMode hp channel mode =>
    rw [encode_setOperatingMode, operandCheck_eq_dispatch]
    · rfl
    all_goals
      rintro rfl
      rfl
  | setReferenceMode hp refSel =>
    simp only [setReferenceMode_operandsInvalid_iff, encode_setReferenceMode]
    rfl

section
variable {i : Instr} (st : Status)

/-- The blocking call of a request that fails a check returns that check's code, makes no call and leaves the handle as it is. -/
theorem blockingCall_of_firstFailure {c : StatusCode} (fail : firstFailure i.handlePresent (operandFailure i) s = some c) :
    blockingCall st s.handle i = ⟨statusBits c, none, s.handle⟩ := by
  rw [blockingCall_eq]
  obtain rfl | rfl := firstFailure_eq_some fail
  · obtain handle | writePresent := (firstFailure_eq_nullReference_iff i).mp fail
    · simp [handle]
    · simp [writePresent]
  · obtain ⟨handle, writePresent, address | operands⟩ := (firstFailure_eq_invalidParameter_iff i).mp fail
    · simp only [handle, writePresent, address, reduceCtorEq, if_true, if_false, statusBits_invalidParameter]
    · simp [handle, writePresent, operands]

/-- The blocking call of a request that passes its checks sends the bytes of the issue, returns the answer and leaves the handle of the
update. -/
theorem blockingCall_of_passes (pass : firstFailure i.handlePresent (operandFailure i) s = none) :
    blockingCall st s.handle i =
      ⟨st, some (.write s.busAddr (encode (updateOf i s).modeA (updateOf i s).modeB i) 3), (updateOf i s).handle⟩ := by
  obtain ⟨wf, writePresent, address⟩ := (firstFailure_eq_none_iff_passes i).mp pass
  obtain ⟨handle, operands⟩ := (Bool.and_eq_true _ _).mp wf
  have inRange : ¬s.busAddr > 0x7F := BitVec.not_lt.mpr address
  rw [blockingCall_eq]
  simp only [handle, writePresent, operands, inRange, reduceCtorEq, if_false]

end

/-- The state that blocking calls leave: the modes of the handle after them, their events used up, and what the outside has seen. -/
def State.afterCalls (h : Handle) (seen : List Obs) (rest : List Event) (s : State) : State :=
  { s with modeA := h.modeA, modeB := h.modeB, events := rest, trace := s.trace ++ seen }

/-- R60, R72: one blocking call is one run of the machine over its events. -/
theorem run_call {st : Status} {i : Instr} {rest : List Event} (idle : s.pending = none)
    (comes : s.events = (blockingCall st s.handle i).schedule i st ++ rest) :
    core.run ((blockingCall st s.handle i).schedule i st).length s =
      .next (s.afterCalls (blockingCall st s.handle i).handle (blockingCall st s.handle i).seen rest) := by
  cases fail : firstFailure i.handlePresent (operandFailure i) s with
  | some c =>
    rw [blockingCall_of_firstFailure st fail] at comes ⊢
    have ended : step s = .next (s.afterCalls s.handle [.status (statusBits c)] rest) :=
      (stepRunsPresentedRequest s i rest comes).trans (exec_of_firstFailure idle fail)
    exact run_succ 0 ended
  | none =>
    rw [blockingCall_of_passes st fail] at comes ⊢
    obtain ⟨wf, writePresent, address⟩ := (firstFailure_eq_none_iff_passes i).mp fail
    exact run_two_completes ⟨idle, writePresent, address⟩ wf comes

/-- A blocking call changes neither the write capability nor the bus address. -/
theorem blockingCall_handle (st : Status) (s : State) (i : Instr) :
    (blockingCall st s.handle i).handle.writePresent = s.writePresent ∧
      (blockingCall st s.handle i).handle.busAddr = s.busAddr := by
  cases fail : firstFailure i.handlePresent (operandFailure i) s with
  | some c =>
    rw [blockingCall_of_firstFailure st fail]
    exact ⟨rfl, rfl⟩
  | none =>
    rw [blockingCall_of_passes st fail]
    exact ⟨updateOf_writePresent i, updateOf_busAddr i⟩

/-- The state a call leaves stands for the handle it leaves. -/
theorem handle_afterCalls (st : Status) (s : State) (i : Instr) (seen : List Obs) (rest : List Event) :
    (s.afterCalls (blockingCall st s.handle i).handle seen rest).handle = (blockingCall st s.handle i).handle := by
  obtain ⟨writePresent, busAddr⟩ := blockingCall_handle st s i
  rw [State.handle, State.afterCalls, ← writePresent, ← busAddr]

/- ## A list of calls -/

/-- Settles O51, by induction on the list: a call leaves an idle machine that stands for the handle the next call finds. -/
theorem machineRefinesBlockingCalls : Obligations.MachineRefinesBlockingCalls := by
  intro calls s rest idle comes
  change core.run _ s = .next (s.afterCalls (handleAfter s.handle calls) (callsSeen s.handle calls) rest)
  induction calls generalizing s with
  | nil =>
    have nothing : s.afterCalls s.handle [] rest = s := by
      rw [State.afterCalls, List.append_nil, ← show s.events = rest from comes]
      rfl
    exact congrArg Host.Outcome.next nothing.symm
  | cons call calls ih =>
    obtain ⟨i, st⟩ := call
    rw [callSchedule, List.append_assoc] at comes
    have first := run_call idle comes
    have others := ih
      (s.afterCalls (blockingCall st s.handle i).handle (blockingCall st s.handle i).seen
        (callSchedule (blockingCall st s.handle i).handle calls ++ rest))
      idle (by rw [handle_afterCalls]; rfl)
    rw [callSchedule, List.length_append, run_add _ first]
    rw [handle_afterCalls] at others
    rw [others, State.afterCalls, State.afterCalls, State.afterCalls, List.append_assoc]
    rfl

end Sys2Proof.Machine
end
